-- ==== Sys2Proof/Word.lean ====
section
/-! DEFINITION. The word types of the merkle_damgaard_engine (10_state.md R22, R24; 30_encoding.md R60).

Addition, AND, OR, XOR and complement of W-bit words (00_scope.md R11, 41_bitops.md R130) are the operations `+`, `&&&`,
`|||`, `^^^` and `~~~` of `BitVec W`: addition is modulo 2^W and no carry is kept. -/

namespace Sys2Proof

/-- One byte: a message byte, a byte of the block buffer BUF, a byte of the digest. -/
abbrev Byte := BitVec 8

/-- A word of the W = 32 algorithms (00_scope.md R8), the DATA field of a command (R61) and the rdata of a response (R71). -/
abbrev Word32 := BitVec 32

/-- A word of the W = 64 algorithms (R8), a register of the hash-state file H (R22), the counter LEN (R23) and a command
word (R60). -/
abbrev Word64 := BitVec 64

end Sys2Proof
end

