-- ==== Sys2Proof/Syntax.lean ====
section
/-! DEFINITION. The commands of the engine, one constructor for each row of spec/opcode_table.json (30_encoding.md R62, R70). -/

namespace Sys2Proof

/-- A decoded command. The UPDATE forms keep the whole DATA field: payload byte k is `DATA[8k+7:8k]` for k < NB, and the
bytes at k ≥ NB are ignored, not checked (R65). `rdigIdx` keeps the whole ARG field (R67). -/
inductive Instr where
  | initMd4
  | initMd5
  | initSha1
  | initSha224
  | initSha256
  | initSha384
  | initSha512
  | update (data : Word32)
  | updateB0 (data : Word32)
  | updateB0B1 (data : Word32)
  | updateB0B1B2 (data : Word32)
  | updateB0B1B2B3 (data : Word32)
  | finalize
  | rdigIdx (idx : BitVec 8)
  | rstat
deriving DecidableEq, Repr

end Sys2Proof
end

