-- ==== Sys2Proof/WellFormed.lean ====
section
/-! DEFINITION. Which commands have a command word (30_encoding.md R66). -/

namespace Sys2Proof

/-- The one operand that can be out of range: the byte index of READ_DIGEST is 0 to 63 (R62, R67). -/
def Instr.wellFormed : Instr → Bool
  | .initMd4 | .initMd5 | .initSha1 | .initSha224 | .initSha256 | .initSha384 | .initSha512 => true
  | .update _ | .updateB0 _ | .updateB0B1 _ | .updateB0B1B2 _ | .updateB0B1B2B3 _ => true
  | .finalize => true
  | .rdigIdx idx => decide (idx.toNat < 64)
  | .rstat => true

/-- `wellFormed` as a proposition. -/
abbrev Instr.WellFormed (i : Instr) : Prop := i.wellFormed = true

end Sys2Proof
end

