-- ==== Sys2Proof/Decode.lean ====
section
/-! DEFINITION. The decoder of 30_encoding.md R66, total on all 2^64 words, and the encoder written from R61 and R62. -/

namespace Sys2Proof

/-- Why a word is an illegal command (R69). Every reason has the same effect, the IllegalCommand response (R69, R251). -/
inductive IllegalReason where
  /-- RSV1 or RSV2 is not 0 (R63). -/
  | reservedField
  /-- OPC is 0x0 or 0x6 to 0xF (R62). -/
  | reservedOpcode
  /-- ARG is out of range: ALG ≥ 7 (R64), NB ≥ 5 (R65), index ≥ 64 (R67), or not 0 for FINALIZE and READ_STATUS (R61). -/
  | argOutOfRange
  /-- DATA is not 0 where R61 requires 0. -/
  | dataNotZero
deriving DecidableEq, Repr

/-- What `decode` yields: one well-formed command, or IllegalCommand (R66). -/
inductive Decoded where
  | command (i : Instr)
  | illegal (why : IllegalReason)
deriving DecidableEq, Repr

/-! ## The fields of the command word (R61) -/

/-- OPC, bits 63:60. -/
def opcField (w : Word64) : BitVec 4 := w.extractLsb' 60 4
/-- RSV1, bits 59:56. -/
def rsv1Field (w : Word64) : BitVec 4 := w.extractLsb' 56 4
/-- ARG, bits 55:48. -/
def argField (w : Word64) : BitVec 8 := w.extractLsb' 48 8
/-- RSV2, bits 47:32. -/
def rsv2Field (w : Word64) : BitVec 16 := w.extractLsb' 32 16
/-- DATA, bits 31:0. -/
def dataField (w : Word64) : Word32 := w.extractLsb' 0 32

/-! ## The decoder -/

/-- A command whose DATA field must be 0 (R61). -/
def withZeroData (data : Word32) (i : Instr) : Decoded :=
  if data = 0 then .command i else .illegal .dataNotZero

/-- OPC 0x1: ARG is the ALG code 0..6 (R64). -/
def decodeInit (arg : BitVec 8) (data : Word32) : Decoded :=
  match arg.toNat with
  | 0 => withZeroData data .initMd4
  | 1 => withZeroData data .initMd5
  | 2 => withZeroData data .initSha1
  | 3 => withZeroData data .initSha224
  | 4 => withZeroData data .initSha256
  | 5 => withZeroData data .initSha384
  | 6 => withZeroData data .initSha512
  | _ => .illegal .argOutOfRange

/-- OPC 0x2: ARG is the byte count NB, 0..4, and DATA is free (R65). -/
def decodeUpdate (arg : BitVec 8) (data : Word32) : Decoded :=
  match arg.toNat with
  | 0 => .command (.update data)
  | 1 => .command (.updateB0 data)
  | 2 => .command (.updateB0B1 data)
  | 3 => .command (.updateB0B1B2 data)
  | 4 => .command (.updateB0B1B2B3 data)
  | _ => .illegal .argOutOfRange

/-- OPC 0x3 and 0x5: ARG and DATA must be 0 (R61). -/
def decodeNoOperand (arg : BitVec 8) (data : Word32) (i : Instr) : Decoded :=
  if arg = 0 then withZeroData data i else .illegal .argOutOfRange

/-- OPC 0x4: ARG is the byte index, 0..63 (R67). -/
def decodeReadDigest (arg : BitVec 8) (data : Word32) : Decoded :=
  if arg.toNat < 64 then withZeroData data (.rdigIdx arg) else .illegal .argOutOfRange

/-- The decoder of R66. It depends on no engine state. -/
def decode (w : Word64) : Decoded :=
  if rsv1Field w ≠ 0 ∨ rsv2Field w ≠ 0 then .illegal .reservedField
  else
    match (opcField w).toNat with
    | 1 => decodeInit (argField w) (dataField w)
    | 2 => decodeUpdate (argField w) (dataField w)
    | 3 => decodeNoOperand (argField w) (dataField w) .finalize
    | 4 => decodeReadDigest (argField w) (dataField w)
    | 5 => decodeNoOperand (argField w) (dataField w) .rstat
    | _ => .illegal .reservedOpcode

/-! ## The encoder -/

/-- A command word from its fields, with RSV1 = RSV2 = 0 (R61). -/
def commandWord (opc : BitVec 4) (arg : BitVec 8) (data : Word32) : Word64 :=
  (opc.setWidth 64 <<< 60) ||| (arg.setWidth 64 <<< 48) ||| data.setWidth 64

/-- The word of a command (R61, R62, R64, R65, R67). -/
def encode : Instr → Word64
  | .initMd4 => commandWord 0x1 0 0
  | .initMd5 => commandWord 0x1 1 0
  | .initSha1 => commandWord 0x1 2 0
  | .initSha224 => commandWord 0x1 3 0
  | .initSha256 => commandWord 0x1 4 0
  | .initSha384 => commandWord 0x1 5 0
  | .initSha512 => commandWord 0x1 6 0
  | .update data => commandWord 0x2 0 data
  | .updateB0 data => commandWord 0x2 1 data
  | .updateB0B1 data => commandWord 0x2 2 data
  | .updateB0B1B2 data => commandWord 0x2 3 data
  | .updateB0B1B2B3 data => commandWord 0x2 4 data
  | .finalize => commandWord 0x3 0 0
  | .rdigIdx idx => commandWord 0x4 idx 0
  | .rstat => commandWord 0x5 0 0

/-! ## The opcode table -/

/-- The row of spec/opcode_table.json a command belongs to, as its match and mask: a word is in the row when
`word &&& mask = match`. -/
def tableRow : Instr → Word64 × Word64
  | .initMd4 => (0x1000000000000000, 0xFFFFFFFFFFFFFFFF)
  | .initMd5 => (0x1001000000000000, 0xFFFFFFFFFFFFFFFF)
  | .initSha1 => (0x1002000000000000, 0xFFFFFFFFFFFFFFFF)
  | .initSha224 => (0x1003000000000000, 0xFFFFFFFFFFFFFFFF)
  | .initSha256 => (0x1004000000000000, 0xFFFFFFFFFFFFFFFF)
  | .initSha384 => (0x1005000000000000, 0xFFFFFFFFFFFFFFFF)
  | .initSha512 => (0x1006000000000000, 0xFFFFFFFFFFFFFFFF)
  | .update _ => (0x2000000000000000, 0xFFFFFFFF00000000)
  | .updateB0 _ => (0x2001000000000000, 0xFFFFFFFF00000000)
  | .updateB0B1 _ => (0x2002000000000000, 0xFFFFFFFF00000000)
  | .updateB0B1B2 _ => (0x2003000000000000, 0xFFFFFFFF00000000)
  | .updateB0B1B2B3 _ => (0x2004000000000000, 0xFFFFFFFF00000000)
  | .finalize => (0x3000000000000000, 0xFFFFFFFFFFFFFFFF)
  | .rdigIdx _ => (0x4000000000000000, 0xFFC0FFFFFFFFFFFF)
  | .rstat => (0x5000000000000000, 0xFFFFFFFFFFFFFFFF)

/-! ## Words numbered as the opcode table numbers them -/

/-- The command word whose low `nbits` bits are those of w and whose other bits are 0. A command is one 64-bit value with
no byte order (R60), so the table's numbering is the word's own. -/
def tableWord (nbits w : Nat) : Word64 := BitVec.ofNat 64 (w % 2 ^ nbits)

/-- The command the decoder reads from a word of the opcode table, none for an illegal word. -/
def decodeTableWord (nbits w : Nat) : Option Instr :=
  match decode (tableWord nbits w) with
  | .command i => some i
  | .illegal _ => none

end Sys2Proof
end

