-- ==== Sys2Proof/Config.lean ====
section
/-! DEFINITION. The algorithm names of the engine, the spec's open parameter and the free value of a reset.

The numbers of the table of 00_scope.md R8 stand in Sys2Proof/Machine/Params.lean. -/

namespace Sys2Proof

/-- The algorithms of 00_scope.md R8. ALG holds only these: its legal values are 0 to 6, and no command can write 7
(10_state.md R21). -/
inductive Alg where
  | md4 | md5 | sha1 | sha224 | sha256 | sha384 | sha512
deriving DecidableEq, Repr

/-- The two settings of the open parameter `PAD_LIMIT_128` (00_scope.md R9, 92_eei_decisions.md D10, 90_conflicts.md C2). -/
inductive PadLimit128 where
  /-- 112, the spec's default. -/
  | limit112
  /-- 120, the source document's literal rule. -/
  | limit120
deriving DecidableEq, Repr

/-- FREE VALUE (notes/assumptions/2.md). What a reset event leaves in register i of H, for the n-th reset: 10_state.md R22
and 70_reset_and_hazards.md R280 say H is unspecified (any value) then. It has no body, so no proof can use its value. -/
opaque Config.resetHash : Nat → Fin 8 → Word64

end Sys2Proof
end

