-- ==== Sys2Proof/Machine/Params.lean ====
section
/-! DEFINITION. The per-algorithm constants of 00_scope.md R8 and the parameters of R9. -/

namespace Sys2Proof

/-- The ALG code of R8 (92_eei_decisions.md D4). -/
def Alg.code : Alg → BitVec 3
  | .md4 => 0 | .md5 => 1 | .sha1 => 2 | .sha224 => 3 | .sha256 => 4 | .sha384 => 5 | .sha512 => 6

/-- Word width W in bits (R8). -/
def Alg.wordBits : Alg → Nat
  | .md4 | .md5 | .sha1 | .sha224 | .sha256 => 32
  | .sha384 | .sha512 => 64

/-- State words n (R8). -/
def Alg.stateWords : Alg → Nat
  | .md4 | .md5 => 4
  | .sha1 => 5
  | .sha224 | .sha256 | .sha384 | .sha512 => 8

/-- Block size bs in bytes (R8). -/
def Alg.blockSize : Alg → Nat
  | .md4 | .md5 | .sha1 | .sha224 | .sha256 => 64
  | .sha384 | .sha512 => 128

/-- Rounds of one compression (R8). -/
def Alg.rounds : Alg → Nat
  | .md4 => 48
  | .md5 => 64
  | .sha1 => 80
  | .sha224 | .sha256 => 64
  | .sha384 | .sha512 => 80

/-- Digest length N in bytes (R8). -/
def Alg.digestBytes : Alg → Nat
  | .md4 | .md5 => 16
  | .sha1 => 20
  | .sha224 => 28
  | .sha256 => 32
  | .sha384 => 48
  | .sha512 => 64

/-- Whether block words, length field and digest are little-endian; all others are big-endian (R8, 20_memory.md R46). -/
def Alg.littleEndian : Alg → Bool
  | .md4 | .md5 => true
  | .sha1 | .sha224 | .sha256 | .sha384 | .sha512 => false

/-- The value of `PAD_LIMIT_128` (R9). -/
def PadLimit128.value : PadLimit128 → Nat
  | .limit112 => 112
  | .limit120 => 120

/-- `limit` of 40_engine_commands.md R92: 56 for 64-byte blocks (90_conflicts.md C1), `PAD_LIMIT_128` for 128-byte blocks. -/
def padLimitOf (p : PadLimit128) (alg : Alg) : Nat :=
  if alg.blockSize = 64 then 56 else p.value

end Sys2Proof
end

