-- ==== Sys2Proof/Machine/State.lean ====
section
/-! DEFINITION. The state of the engine as plain data (10_state.md), the reasons a step can stop, and the state after reset. -/

namespace Sys2Proof.Machine

/-- `PHASE` (R20). -/
inductive Phase where
  /-- 0: power-on, before the first INIT. -/
  | unconfigured
  /-- 1 -/
  | fresh
  /-- 2 -/
  | accumulating
  /-- 3 -/
  | finalized
deriving DecidableEq, Repr

/-- The response codes, which LAST_ERR holds too (R26; 60_exceptions.md R250). -/
inductive RespCode where
  /-- 0: the command completed. -/
  | ok
  /-- 1: the phase precondition fails. -/
  | invalidState
  /-- 2: the word does not decode. -/
  | illegalCommand
  /-- 3: READ_DIGEST index ≥ N. -/
  | indexRange
deriving DecidableEq, Repr

/-- A response `(code, rdata)` (30_encoding.md R71). -/
structure Response where
  code : RespCode
  rdata : Word32
deriving DecidableEq, Repr

/-- What the outside world can do to the engine, one move at a time: issue a command word (30_encoding.md R60) or assert reset
(70_reset_and_hazards.md R280, R281). -/
inductive HostMove where
  | command (w : Word64)
  | reset
deriving DecidableEq, Repr

/-- The hash-state register file H[0..7], eight registers of 64 bits (R22). -/
abbrev HashFile := Vector Word64 8

/-- The contents of the one address space, BUF (R24; 20_memory.md R40): the listed bytes, at strictly rising addresses, none
equal to what an unlisted address reads as. -/
abbrev Memory := List Host.Cell

/-- What stops the machine: nothing does. Every error of this hardware is a response the engine gives before it is ready for the next command
(60_exceptions.md R251, R258, R259), so a wrong command is a next state, never a fault. -/
inductive Fault where
deriving DecidableEq, Repr

/-- Why a step can answer no state. -/
inductive Refusal where
  /-- Raised by an arm of `exec` that has no meaning yet, with the command's mnemonic in spec/opcode_table.json. Safe. No arm of this model raises it. -/
  | notModelled (mnemonic : String)
deriving DecidableEq, Repr

/-- Everything 10_state.md gives the machine, and four fields of the model's own, below the spec's. -/
structure State where
  /-- PHASE (R20) -/
  phase : Phase
  /-- ALG (R21) -/
  alg : Alg
  /-- H[0..7] (R22) -/
  h : HashFile
  /-- LEN, 64 bits (R23) -/
  len : Word64
  /-- BUF[0..127] (R24) -/
  buf : Memory
  /-- FILL, 7 bits (R25) -/
  fill : BitVec 7
  /-- LAST_ERR (R26) -/
  lastErr : RespCode
  /-- ERR_STICKY (R27) -/
  errSticky : Bool
  /-- The setting of the open parameter PAD_LIMIT_128 (00_scope.md R9). Nothing writes it (notes/assumptions/3.md). -/
  padLimit128 : PadLimit128
  /-- MODEL'S OWN: the moves the host is going to make, next first (notes/assumptions/4.md). -/
  host : List HostMove
  /-- MODEL'S OWN: the responses given so far, oldest first (00_scope.md R18; notes/assumptions/5.md). -/
  responses : List Response
  /-- MODEL'S OWN: how many reset events there were, the argument of the free value of H (notes/assumptions/2.md). -/
  resets : Nat
deriving DecidableEq, Repr

/-- The machine right after power-on reset (R32; 70_reset_and_hazards.md R280). DESIGN CHOICE for H, which the spec leaves
unspecified (notes/assumptions/1.md); BUF lists nothing (notes/assumptions/6.md). -/
def State.reset : State where
  phase := .unconfigured
  alg := .md4
  h := #v[0, 0, 0, 0, 0, 0, 0, 0]
  len := 0
  buf := []
  fill := 0
  lastErr := .ok
  errSticky := false
  padLimit128 := .limit112
  host := []
  responses := []
  resets := 0

end Sys2Proof.Machine
end

