-- ==== Sys2Proof/Machine/Flags.lean ====
section
/-! DEFINITION. The two error fields LAST_ERR and ERR_STICKY, the only flags of the engine (10_state.md R26, R27, R35), and
the STATUS view (R28). -/

namespace Sys2Proof.Machine

/-- The 2-bit code of PHASE (R20). -/
def Phase.code : Phase → BitVec 2
  | .unconfigured => 0 | .fresh => 1 | .accumulating => 2 | .finalized => 3

/-- The 2-bit response code, as LAST_ERR and the response show it (60_exceptions.md R250). -/
def RespCode.code : RespCode → BitVec 2
  | .ok => 0 | .invalidState => 1 | .illegalCommand => 2 | .indexRange => 3

/-- What an error writes: the code in LAST_ERR and 1 in ERR_STICKY (60_exceptions.md R254). -/
def noteError (e : RespCode) (s : State) : State :=
  { s with lastErr := e, errSticky := true }

/-- What a completed command writes: LAST_ERR = 0. ERR_STICKY stays (R27; 40_engine_commands.md R80 step 5). -/
def noteOk (s : State) : State :=
  { s with lastErr := .ok }

/-- What a completed INIT writes: it clears ERR_STICKY too (R27; 40_engine_commands.md R81). -/
def clearErrors (s : State) : State :=
  { s with lastErr := .ok, errSticky := false }

/-- The DLEN field: N of ALG when PHASE ≠ 0, else 0 (R28). -/
def dlenField (s : State) : BitVec 7 :=
  if s.phase = .unconfigured then 0 else BitVec.ofNat 7 s.alg.digestBytes

/-- The `STATUS` view (R28), its fields put at their bits, every other bit 0. -/
def statusWord (s : State) : Word32 :=
  s.phase.code.setWidth 32
    ||| (s.alg.code.setWidth 32 <<< 4)
    ||| (s.lastErr.code.setWidth 32 <<< 8)
    ||| ((BitVec.ofBool s.errSticky).setWidth 32 <<< 12)
    ||| (s.fill.setWidth 32 <<< 16)
    ||| ((dlenField s).setWidth 32 <<< 24)

end Sys2Proof.Machine
end

