-- ==== Sys2Proof/Machine/Memory.lean ====
section
/-! DEFINITION. Reading and writing the block buffer BUF (00_scope.md R12; 20_memory.md R40).

An address is 7 bits wide and every one of its 128 values is a byte of BUF (R40), so no address is missing or misaligned
(R48). -/

namespace Sys2Proof.Machine

/-- What a byte of BUF that the memory does not list reads as. DESIGN CHOICE, unsafe (notes/assumptions/6.md): the spec leaves
it unspecified (10_state.md R24). -/
def Memory.unlisted : Byte := 0

/-- The canonical form: strictly rising addresses inside BUF, and no entry equal to what an unlisted address reads as. -/
abbrev Memory.wf (m : Memory) : Prop :=
  m.Pairwise (fun x y => x.1 < y.1) ∧ ∀ c ∈ m, c.1 < 128 ∧ c.2 ≠ Memory.unlisted

/-- The byte at a numeric address. -/
def Memory.lookup : Memory → Nat → Byte
  | [], _ => Memory.unlisted
  | (k, c) :: rest, a => if k = a then c else Memory.lookup rest a

/-- One entry put before a memory whose addresses all lie above it, left out where the unlisted value says the same. -/
def Memory.cons (a : Nat) (b : Byte) (m : Memory) : Memory :=
  if b = Memory.unlisted then m else (a, b) :: m

/-- The memory with byte b at a numeric address. -/
def Memory.insert : Memory → Nat → Byte → Memory
  | [], a, b => Memory.cons a b []
  | (k, c) :: rest, a, b =>
    if a < k then Memory.cons a b ((k, c) :: rest)
    else if a = k then Memory.cons a b rest
    else (k, c) :: Memory.insert rest a b

/-- `BUF[a]` read (R12). -/
def Memory.read (m : Memory) (a : BitVec 7) : Byte := m.lookup a.toNat

/-- `BUF[a] <- b` (R12). -/
def Memory.write (m : Memory) (a : BitVec 7) (b : Byte) : Memory := m.insert a.toNat b

/-- `MemRead(j, n)`, the bytes `BUF[j], ..., BUF[j+n-1]` (R12). -/
def Memory.readBytes (m : Memory) (j n : Nat) : List Byte :=
  (List.range n).map (fun k => m.read (BitVec.ofNat 7 (j + k)))

/-- `MemWrite(j, n, bytes)` with n the number of bytes (R12). -/
def Memory.writeBytes (m : Memory) (j : Nat) : List Byte → Memory
  | [] => m
  | b :: rest => Memory.writeBytes (m.write (BitVec.ofNat 7 j) b) (j + 1) rest

/-- `for j in lo .. hi-1: BUF[j] <- 0`, no byte when hi ≤ lo (40_engine_commands.md R94, R95). -/
def Memory.zeroFill (m : Memory) (lo hi : Nat) : Memory :=
  m.writeBytes lo (List.replicate (hi - lo) 0)

end Sys2Proof.Machine
end

