-- ==== Sys2Proof/Machine/BitOps.lean ====
section
/-! DEFINITION. The bitwise_rotator_shifter (41_bitops.md): rotate, shift, pack, unpack and the shared mixing functions. -/

namespace Sys2Proof.Machine

/-! ## Rotate and shift (R120 to R125) -/

/-- An amount the rotator of width w is defined on: 0 < n < w. R120 leaves every other amount undefined and
92_eei_decisions.md D12 refuses it; here it has no term. -/
abbrev RotAmount (w : Nat) := { n : Nat // 0 < n ∧ n < w }

/-- The amount n, or none where the rotator refuses it (R120, R142, D12). -/
def rotAmount (w n : Nat) : Option (RotAmount w) :=
  if h : 0 < n ∧ n < w then some ⟨n, h⟩ else none

/-- ROTL_W (R120, R123). -/
def rotl {w : Nat} (x : BitVec w) (n : RotAmount w) : BitVec w :=
  (x <<< n.val) ||| (x >>> (w - n.val))

/-- ROTR_W (R121, R124). -/
def rotr {w : Nat} (x : BitVec w) (n : RotAmount w) : BitVec w :=
  (x >>> n.val) ||| (x <<< (w - n.val))

/-- SHR_W, logical (R122, R125). -/
def shr {w : Nat} (x : BitVec w) (n : RotAmount w) : BitVec w :=
  x >>> n.val

/-! ## Packing and unpacking (R126 to R129) -/

/-- LE32 (R126). -/
def le32 (s0 s1 s2 s3 : Byte) : Word32 :=
  s0.setWidth 32 ||| (s1.setWidth 32 <<< 8) ||| (s2.setWidth 32 <<< 16) ||| (s3.setWidth 32 <<< 24)

/-- unLE32 (R126). -/
def unLE32 (w : Word32) : List Byte :=
  [w.extractLsb' 0 8, w.extractLsb' 8 8, w.extractLsb' 16 8, w.extractLsb' 24 8]

/-- BE32 (R127). -/
def be32 (s0 s1 s2 s3 : Byte) : Word32 :=
  (s0.setWidth 32 <<< 24) ||| (s1.setWidth 32 <<< 16) ||| (s2.setWidth 32 <<< 8) ||| s3.setWidth 32

/-- unBE32 (R127). -/
def unBE32 (w : Word32) : List Byte :=
  [w.extractLsb' 24 8, w.extractLsb' 16 8, w.extractLsb' 8 8, w.extractLsb' 0 8]

/-- BE64 (R128). -/
def be64 (s0 s1 s2 s3 s4 s5 s6 s7 : Byte) : Word64 :=
  (s0.setWidth 64 <<< 56) ||| (s1.setWidth 64 <<< 48) ||| (s2.setWidth 64 <<< 40) ||| (s3.setWidth 64 <<< 32)
    ||| (s4.setWidth 64 <<< 24) ||| (s5.setWidth 64 <<< 16) ||| (s6.setWidth 64 <<< 8) ||| s7.setWidth 64

/-- unBE64 (R128). -/
def unBE64 (w : Word64) : List Byte :=
  [w.extractLsb' 56 8, w.extractLsb' 48 8, w.extractLsb' 40 8, w.extractLsb' 32 8,
   w.extractLsb' 24 8, w.extractLsb' 16 8, w.extractLsb' 8 8, w.extractLsb' 0 8]

/-- LE64, used by no core (R129). -/
def le64 (s0 s1 s2 s3 s4 s5 s6 s7 : Byte) : Word64 :=
  be64 s7 s6 s5 s4 s3 s2 s1 s0

/-- unLE64, the order of the MD4/MD5 length field (R129). -/
def unLE64 (w : Word64) : List Byte :=
  [w.extractLsb' 0 8, w.extractLsb' 8 8, w.extractLsb' 16 8, w.extractLsb' 24 8,
   w.extractLsb' 32 8, w.extractLsb' 40 8, w.extractLsb' 48 8, w.extractLsb' 56 8]

/-- A block as little-endian 32-bit words, `X[j] = LE32(MemRead(4j, 4))` (20_memory.md R42). Here and in the next two, bytes at
the end that fill no word are dropped; a block of bs bytes has none (DESIGN CHOICE, notes/assumptions/14.md). -/
def unpackLE32 : List Byte → List Word32
  | s0 :: s1 :: s2 :: s3 :: rest => le32 s0 s1 s2 s3 :: unpackLE32 rest
  | _ => []

/-- A block as big-endian 32-bit words, `W[j] = BE32(MemRead(4j, 4))` (R42). -/
def unpackBE32 : List Byte → List Word32
  | s0 :: s1 :: s2 :: s3 :: rest => be32 s0 s1 s2 s3 :: unpackBE32 rest
  | _ => []

/-- A block as big-endian 64-bit words, `W[j] = BE64(MemRead(8j, 8))` (R42). -/
def unpackBE64 : List Byte → List Word64
  | s0 :: s1 :: s2 :: s3 :: s4 :: s5 :: s6 :: s7 :: rest => be64 s0 s1 s2 s3 s4 s5 s6 s7 :: unpackBE64 rest
  | _ => []

/-! ## The shared mixing functions (R131 to R141) -/

/-- Ch_W (R131). -/
def ch {w : Nat} (x y z : BitVec w) : BitVec w := (x &&& y) ^^^ (~~~x &&& z)

/-- Maj_W (R132). -/
def maj {w : Nat} (x y z : BitVec w) : BitVec w := (x &&& y) ^^^ (x &&& z) ^^^ (y &&& z)

/-- Parity_32 (R133). -/
def parity (x y z : Word32) : Word32 := x ^^^ y ^^^ z

/-- Σ0 for SHA-224/256 (R134). -/
def bsig0_32 (x : Word32) : Word32 := rotr x ⟨2, by decide⟩ ^^^ rotr x ⟨13, by decide⟩ ^^^ rotr x ⟨22, by decide⟩

/-- Σ1 for SHA-224/256 (R135). -/
def bsig1_32 (x : Word32) : Word32 := rotr x ⟨6, by decide⟩ ^^^ rotr x ⟨11, by decide⟩ ^^^ rotr x ⟨25, by decide⟩

/-- σ0 for SHA-224/256 (R136). -/
def ssig0_32 (x : Word32) : Word32 := rotr x ⟨7, by decide⟩ ^^^ rotr x ⟨18, by decide⟩ ^^^ shr x ⟨3, by decide⟩

/-- σ1 for SHA-224/256 (R137). -/
def ssig1_32 (x : Word32) : Word32 := rotr x ⟨17, by decide⟩ ^^^ rotr x ⟨19, by decide⟩ ^^^ shr x ⟨10, by decide⟩

/-- Σ0 for SHA-384/512 (R138). -/
def bsig0_64 (x : Word64) : Word64 := rotr x ⟨28, by decide⟩ ^^^ rotr x ⟨34, by decide⟩ ^^^ rotr x ⟨39, by decide⟩

/-- Σ1 for SHA-384/512 (R139). -/
def bsig1_64 (x : Word64) : Word64 := rotr x ⟨14, by decide⟩ ^^^ rotr x ⟨18, by decide⟩ ^^^ rotr x ⟨41, by decide⟩

/-- σ0 for SHA-384/512 (R140). -/
def ssig0_64 (x : Word64) : Word64 := rotr x ⟨1, by decide⟩ ^^^ rotr x ⟨8, by decide⟩ ^^^ shr x ⟨7, by decide⟩

/-- σ1 for SHA-384/512 (R141). -/
def ssig1_64 (x : Word64) : Word64 := rotr x ⟨19, by decide⟩ ^^^ rotr x ⟨61, by decide⟩ ^^^ shr x ⟨6, by decide⟩

/-! ## Schedule expansion -/

/-- Extends a message schedule, held newest word first, by n words of a recurrence over the words before it
(00_scope.md R15, 44 to 46). In the list `r`, `W[t-k]` is `r[k-1]`. -/
def extendSchedule {w : Nat} (next : List (BitVec w) → BitVec w) : Nat → List (BitVec w) → List (BitVec w)
  | 0, r => r
  | n + 1, r => extendSchedule next n (next r :: r)

end Sys2Proof.Machine
end

