-- ==== Sys2Proof/Machine/Md4Core.lean ====
section
/-! DEFINITION. md4_compression_core (42_md4_core.md). -/

namespace Sys2Proof.Machine

/-- The four working registers of MD4 and MD5, and the four words of their hash state. -/
structure Work4 where
  a : Word32
  b : Word32
  c : Word32
  d : Word32
deriving DecidableEq, Repr

/-- IV(MD4) (R150). -/
def md4IV : Work4 := ⟨0x67452301, 0xefcdab89, 0x98badcfe, 0x10325476⟩

/-- MD4_F (R151). -/
def md4F (x y z : Word32) : Word32 := (x &&& y) ||| (~~~x &&& z)

/-- MD4_G (R152). -/
def md4G (x y z : Word32) : Word32 := (x &&& y) ||| (x &&& z) ||| (y &&& z)

/-- MD4_H (R153). -/
def md4H (x y z : Word32) : Word32 := x ^^^ y ^^^ z

/-- The function of pass r (R154). -/
def md4Fun (r : Nat) (x y z : Word32) : Word32 :=
  match r with
  | 0 => md4F x y z
  | 1 => md4G x y z
  | _ => md4H x y z

/-- K(i) of pass r (R154). -/
def md4K (r : Nat) : Word32 :=
  match r with
  | 0 => 0x00000000
  | 1 => 0x5a827999
  | _ => 0x6ed9eba1

/-- k(i) of pass r, for j = 0..15 (R154). -/
def md4Order (r : Nat) : List Nat :=
  match r with
  | 0 => [0, 1, 2, 3, 4, 5, 6, 7, 8, 9, 10, 11, 12, 13, 14, 15]
  | 1 => [0, 4, 8, 12, 1, 5, 9, 13, 2, 6, 10, 14, 3, 7, 11, 15]
  | _ => [0, 8, 4, 12, 2, 10, 6, 14, 1, 9, 5, 13, 3, 11, 7, 15]

/-- s(i) of pass r, by j mod 4 (R154). -/
def md4Amount (r q : Nat) : RotAmount 32 :=
  match r, q with
  | 0, 0 => ⟨3, by decide⟩
  | 0, 1 => ⟨7, by decide⟩
  | 0, 2 => ⟨11, by decide⟩
  | 0, _ => ⟨19, by decide⟩
  | 1, 0 => ⟨3, by decide⟩
  | 1, 1 => ⟨5, by decide⟩
  | 1, 2 => ⟨9, by decide⟩
  | 1, _ => ⟨13, by decide⟩
  | _, 0 => ⟨3, by decide⟩
  | _, 1 => ⟨9, by decide⟩
  | _, 2 => ⟨11, by decide⟩
  | _, _ => ⟨15, by decide⟩

/-- Round i of MD4 on the block words X (R160). A word X does not hold reads as 0, which no block of 64 bytes shows
(DESIGN CHOICE, notes/assumptions/14.md). -/
def md4Round (X : List Word32) (v : Work4) (i : Nat) : Work4 :=
  let r := i / 16
  let j := i % 16
  let t := rotl (v.a + md4Fun r v.b v.c v.d + X.getD ((md4Order r).getD j 0) 0 + md4K r) (md4Amount r (j % 4))
  ⟨v.d, t, v.b, v.c⟩

/-- MD4_COMPRESS (R160), on 64 bytes. For another length: notes/assumptions/14.md (DESIGN CHOICE). -/
def md4Compress (hin : Work4) (blk : List Byte) : Work4 :=
  let v := (List.range 48).foldl (md4Round (unpackLE32 blk)) hin
  ⟨hin.a + v.a, hin.b + v.b, hin.c + v.c, hin.d + v.d⟩

end Sys2Proof.Machine
end

