-- ==== Sys2Proof/Machine/Md5Core.lean ====
section
/-! DEFINITION. md5_compression_core (43_md5_core.md). -/

namespace Sys2Proof.Machine

/-- IV(MD5), the same four words as MD4 (R170). -/
def md5IV : Work4 := ⟨0x67452301, 0xefcdab89, 0x98badcfe, 0x10325476⟩

/-- MD5_F (R171). -/
def md5F (x y z : Word32) : Word32 := (x &&& y) ||| (~~~x &&& z)

/-- MD5_G (R172). -/
def md5G (x y z : Word32) : Word32 := (x &&& z) ||| (y &&& ~~~z)

/-- MD5_H (R173). -/
def md5H (x y z : Word32) : Word32 := x ^^^ y ^^^ z

/-- MD5_I (R174). -/
def md5I (x y z : Word32) : Word32 := y ^^^ (x ||| ~~~z)

/-- The function of pass r (R175). -/
def md5Fun (r : Nat) (x y z : Word32) : Word32 :=
  match r with
  | 0 => md5F x y z
  | 1 => md5G x y z
  | 2 => md5H x y z
  | _ => md5I x y z

/-- k(i) of pass r (R175). -/
def md5Order (r j : Nat) : Nat :=
  match r with
  | 0 => j
  | 1 => (1 + 5 * j) % 16
  | 2 => (5 + 3 * j) % 16
  | _ => (7 * j) % 16

/-- s(i) of pass r, by j mod 4 (R175). -/
def md5Amount (r q : Nat) : RotAmount 32 :=
  match r, q with
  | 0, 0 => ⟨7, by decide⟩
  | 0, 1 => ⟨12, by decide⟩
  | 0, 2 => ⟨17, by decide⟩
  | 0, _ => ⟨22, by decide⟩
  | 1, 0 => ⟨5, by decide⟩
  | 1, 1 => ⟨9, by decide⟩
  | 1, 2 => ⟨14, by decide⟩
  | 1, _ => ⟨20, by decide⟩
  | 2, 0 => ⟨4, by decide⟩
  | 2, 1 => ⟨11, by decide⟩
  | 2, 2 => ⟨16, by decide⟩
  | 2, _ => ⟨23, by decide⟩
  | _, 0 => ⟨6, by decide⟩
  | _, 1 => ⟨10, by decide⟩
  | _, 2 => ⟨15, by decide⟩
  | _, _ => ⟨21, by decide⟩

/-- T[0..63] (R176). -/
def md5T : List Word32 :=
  [0xd76aa478, 0xe8c7b756, 0x242070db, 0xc1bdceee, 0xf57c0faf, 0x4787c62a, 0xa8304613, 0xfd469501] ++
  [0x698098d8, 0x8b44f7af, 0xffff5bb1, 0x895cd7be, 0x6b901122, 0xfd987193, 0xa679438e, 0x49b40821] ++
  [0xf61e2562, 0xc040b340, 0x265e5a51, 0xe9b6c7aa, 0xd62f105d, 0x02441453, 0xd8a1e681, 0xe7d3fbc8] ++
  [0x21e1cde6, 0xc33707d6, 0xf4d50d87, 0x455a14ed, 0xa9e3e905, 0xfcefa3f8, 0x676f02d9, 0x8d2a4c8a] ++
  [0xfffa3942, 0x8771f681, 0x6d9d6122, 0xfde5380c, 0xa4beea44, 0x4bdecfa9, 0xf6bb4b60, 0xbebfbc70] ++
  [0x289b7ec6, 0xeaa127fa, 0xd4ef3085, 0x04881d05, 0xd9d4d039, 0xe6db99e5, 0x1fa27cf8, 0xc4ac5665] ++
  [0xf4292244, 0x432aff97, 0xab9423a7, 0xfc93a039, 0x655b59c3, 0x8f0ccc92, 0xffeff47d, 0x85845dd1] ++
  [0x6fa87e4f, 0xfe2ce6e0, 0xa3014314, 0x4e0811a1, 0xf7537e82, 0xbd3af235, 0x2ad7d2bb, 0xeb86d391]

/-- Round i of MD5 on the block words X (R180). A word X does not hold reads as 0, which no block of 64 bytes shows
(DESIGN CHOICE, notes/assumptions/14.md). -/
def md5Round (X : List Word32) (v : Work4) (i : Nat) : Work4 :=
  let r := i / 16
  let j := i % 16
  let t := v.b + rotl (v.a + md5Fun r v.b v.c v.d + X.getD (md5Order r j) 0 + md5T.getD i 0) (md5Amount r (j % 4))
  ⟨v.d, t, v.b, v.c⟩

/-- MD5_COMPRESS (R180), on 64 bytes. What it answers for another length is the model's own (DESIGN CHOICE,
notes/assumptions/14.md); no command gives one (R100, R256). -/
def md5Compress (hin : Work4) (blk : List Byte) : Work4 :=
  let v := (List.range 64).foldl (md5Round (unpackLE32 blk)) hin
  ⟨hin.a + v.a, hin.b + v.b, hin.c + v.c, hin.d + v.d⟩

end Sys2Proof.Machine
end

