-- ==== Sys2Proof/Machine/Sha1Core.lean ====
section
/-! DEFINITION. sha1_compression_core (44_sha1_core.md). -/

namespace Sys2Proof.Machine

/-- The five working registers of SHA-1, and the five words of its hash state. -/
structure Work5 where
  a : Word32
  b : Word32
  c : Word32
  d : Word32
  e : Word32
deriving DecidableEq, Repr

/-- IV(SHA-1) (R190). -/
def sha1IV : Work5 := ⟨0x67452301, 0xefcdab89, 0x98badcfe, 0x10325476, 0xc3d2e1f0⟩

/-- `W[t]` from the words before it, newest first (R191). From a block of 64 bytes there are 16 or more of them; a word that is
not there reads as 0 (DESIGN CHOICE, notes/assumptions/14.md). -/
def sha1Next (r : List Word32) : Word32 :=
  rotl (r.getD 2 0 ^^^ r.getD 7 0 ^^^ r.getD 13 0 ^^^ r.getD 15 0) ⟨1, by decide⟩

/-- The schedule W[0..79] (R191). -/
def sha1Schedule (blk : List Byte) : List Word32 :=
  (extendSchedule sha1Next 64 (unpackBE32 blk).reverse).reverse

/-- f_t (R192). -/
def sha1Fun (t : Nat) (b c d : Word32) : Word32 :=
  if t < 20 then ch b c d
  else if t < 40 then parity b c d
  else if t < 60 then maj b c d
  else parity b c d

/-- K_t (R192). -/
def sha1K (t : Nat) : Word32 :=
  if t < 20 then 0x5a827999
  else if t < 40 then 0x6ed9eba1
  else if t < 60 then 0x8f1bbcdc
  else 0xca62c1d6

/-- Round t of SHA-1 with its schedule word (R200). -/
def sha1Round (v : Work5) (wt : Word32) (t : Nat) : Work5 :=
  let T := rotl v.a ⟨5, by decide⟩ + sha1Fun t v.b v.c v.d + v.e + sha1K t + wt
  ⟨T, v.a, rotl v.b ⟨30, by decide⟩, v.c, v.d⟩

/-- SHA1_COMPRESS (R200), on 64 bytes. For another length: notes/assumptions/14.md (DESIGN CHOICE). -/
def sha1Compress (hin : Work5) (blk : List Byte) : Work5 :=
  let v := (sha1Schedule blk).zipIdx.foldl (fun v wt => sha1Round v wt.1 wt.2) hin
  ⟨hin.a + v.a, hin.b + v.b, hin.c + v.c, hin.d + v.d, hin.e + v.e⟩

end Sys2Proof.Machine
end

