-- ==== Sys2Proof/Machine/Sha2Core32.lean ====
section
/-! DEFINITION. sha2_32bit_compression_core: SHA-224 and SHA-256 (45_sha2_32_core.md). -/

namespace Sys2Proof.Machine

/-- The eight working registers of the SHA-2 cores, and the eight words of their hash state, for either width
(45_sha2_32_core.md R220, 46_sha2_64_core.md R240). -/
structure Work8 (w : Nat) where
  a : BitVec w
  b : BitVec w
  c : BitVec w
  d : BitVec w
  e : BitVec w
  f : BitVec w
  g : BitVec w
  h : BitVec w
deriving DecidableEq, Repr

/-- IV(SHA-256) (R210). -/
def sha256IV : Work8 32 :=
  ⟨0x6a09e667, 0xbb67ae85, 0x3c6ef372, 0xa54ff53a,
   0x510e527f, 0x9b05688c, 0x1f83d9ab, 0x5be0cd19⟩

/-- IV(SHA-224) (R211). -/
def sha224IV : Work8 32 :=
  ⟨0xc1059ed8, 0x367cd507, 0x3070dd17, 0xf70e5939,
   0xffc00b31, 0x68581511, 0x64f98fa7, 0xbefa4fa4⟩

/-- K256[0..63] (R213). -/
def sha256K : List Word32 :=
  [0x428a2f98, 0x71374491, 0xb5c0fbcf, 0xe9b5dba5, 0x3956c25b, 0x59f111f1, 0x923f82a4, 0xab1c5ed5] ++
  [0xd807aa98, 0x12835b01, 0x243185be, 0x550c7dc3, 0x72be5d74, 0x80deb1fe, 0x9bdc06a7, 0xc19bf174] ++
  [0xe49b69c1, 0xefbe4786, 0x0fc19dc6, 0x240ca1cc, 0x2de92c6f, 0x4a7484aa, 0x5cb0a9dc, 0x76f988da] ++
  [0x983e5152, 0xa831c66d, 0xb00327c8, 0xbf597fc7, 0xc6e00bf3, 0xd5a79147, 0x06ca6351, 0x14292967] ++
  [0x27b70a85, 0x2e1b2138, 0x4d2c6dfc, 0x53380d13, 0x650a7354, 0x766a0abb, 0x81c2c92e, 0x92722c85] ++
  [0xa2bfe8a1, 0xa81a664b, 0xc24b8b70, 0xc76c51a3, 0xd192e819, 0xd6990624, 0xf40e3585, 0x106aa070] ++
  [0x19a4c116, 0x1e376c08, 0x2748774c, 0x34b0bcb5, 0x391c0cb3, 0x4ed8aa4a, 0x5b9cca4f, 0x682e6ff3] ++
  [0x748f82ee, 0x78a5636f, 0x84c87814, 0x8cc70208, 0x90befffa, 0xa4506ceb, 0xbef9a3f7, 0xc67178f2]

/-- `W[t]` from the words before it, newest first (R212). From a block of 64 bytes there are 16 or more of them; a word that is
not there reads as 0 (DESIGN CHOICE, notes/assumptions/14.md). -/
def sha256Next (r : List Word32) : Word32 :=
  ssig1_32 (r.getD 1 0) + r.getD 6 0 + ssig0_32 (r.getD 14 0) + r.getD 15 0

/-- The schedule W[0..63] (R212). -/
def sha256Schedule (blk : List Byte) : List Word32 :=
  (extendSchedule sha256Next 48 (unpackBE32 blk).reverse).reverse

/-- One round with its constant and schedule word (R220). -/
def sha256Round (v : Work8 32) (kt wt : Word32) : Work8 32 :=
  let t1 := v.h + bsig1_32 v.e + ch v.e v.f v.g + kt + wt
  let t2 := bsig0_32 v.a + maj v.a v.b v.c
  ⟨t1 + t2, v.a, v.b, v.c, v.d + t1, v.e, v.f, v.g⟩

/-- SHA256_COMPRESS (R220), on 64 bytes. For another length: notes/assumptions/14.md (DESIGN CHOICE). -/
def sha256Compress (hin : Work8 32) (blk : List Byte) : Work8 32 :=
  let v := (sha256K.zip (sha256Schedule blk)).foldl (fun v kw => sha256Round v kw.1 kw.2) hin
  ⟨hin.a + v.a, hin.b + v.b, hin.c + v.c, hin.d + v.d, hin.e + v.e, hin.f + v.f, hin.g + v.g, hin.h + v.h⟩

end Sys2Proof.Machine
end

