-- ==== Sys2Proof/Machine/Sha2Core64.lean ====
section
/-! DEFINITION. sha2_64bit_compression_core: SHA-384 and SHA-512 (46_sha2_64_core.md). -/

namespace Sys2Proof.Machine

/-- IV(SHA-512) (R230). -/
def sha512IV : Work8 64 :=
  ⟨0x6a09e667f3bcc908, 0xbb67ae8584caa73b, 0x3c6ef372fe94f82b, 0xa54ff53a5f1d36f1,
   0x510e527fade682d1, 0x9b05688c2b3e6c1f, 0x1f83d9abfb41bd6b, 0x5be0cd19137e2179⟩

/-- IV(SHA-384) (R231). -/
def sha384IV : Work8 64 :=
  ⟨0xcbbb9d5dc1059ed8, 0x629a292a367cd507, 0x9159015a3070dd17, 0x152fecd8f70e5939,
   0x67332667ffc00b31, 0x8eb44a8768581511, 0xdb0c2e0d64f98fa7, 0x47b5481dbefa4fa4⟩

/-- K512[0..79] (R233). -/
def sha512K : List Word64 :=
  [0x428a2f98d728ae22, 0x7137449123ef65cd, 0xb5c0fbcfec4d3b2f, 0xe9b5dba58189dbbc] ++
  [0x3956c25bf348b538, 0x59f111f1b605d019, 0x923f82a4af194f9b, 0xab1c5ed5da6d8118] ++
  [0xd807aa98a3030242, 0x12835b0145706fbe, 0x243185be4ee4b28c, 0x550c7dc3d5ffb4e2] ++
  [0x72be5d74f27b896f, 0x80deb1fe3b1696b1, 0x9bdc06a725c71235, 0xc19bf174cf692694] ++
  [0xe49b69c19ef14ad2, 0xefbe4786384f25e3, 0x0fc19dc68b8cd5b5, 0x240ca1cc77ac9c65] ++
  [0x2de92c6f592b0275, 0x4a7484aa6ea6e483, 0x5cb0a9dcbd41fbd4, 0x76f988da831153b5] ++
  [0x983e5152ee66dfab, 0xa831c66d2db43210, 0xb00327c898fb213f, 0xbf597fc7beef0ee4] ++
  [0xc6e00bf33da88fc2, 0xd5a79147930aa725, 0x06ca6351e003826f, 0x142929670a0e6e70] ++
  [0x27b70a8546d22ffc, 0x2e1b21385c26c926, 0x4d2c6dfc5ac42aed, 0x53380d139d95b3df] ++
  [0x650a73548baf63de, 0x766a0abb3c77b2a8, 0x81c2c92e47edaee6, 0x92722c851482353b] ++
  [0xa2bfe8a14cf10364, 0xa81a664bbc423001, 0xc24b8b70d0f89791, 0xc76c51a30654be30] ++
  [0xd192e819d6ef5218, 0xd69906245565a910, 0xf40e35855771202a, 0x106aa07032bbd1b8] ++
  [0x19a4c116b8d2d0c8, 0x1e376c085141ab53, 0x2748774cdf8eeb99, 0x34b0bcb5e19b48a8] ++
  [0x391c0cb3c5c95a63, 0x4ed8aa4ae3418acb, 0x5b9cca4f7763e373, 0x682e6ff3d6b2b8a3] ++
  [0x748f82ee5defb2fc, 0x78a5636f43172f60, 0x84c87814a1f0ab72, 0x8cc702081a6439ec] ++
  [0x90befffa23631e28, 0xa4506cebde82bde9, 0xbef9a3f7b2c67915, 0xc67178f2e372532b] ++
  [0xca273eceea26619c, 0xd186b8c721c0c207, 0xeada7dd6cde0eb1e, 0xf57d4f7fee6ed178] ++
  [0x06f067aa72176fba, 0x0a637dc5a2c898a6, 0x113f9804bef90dae, 0x1b710b35131c471b] ++
  [0x28db77f523047d84, 0x32caab7b40c72493, 0x3c9ebe0a15c9bebc, 0x431d67c49c100d4c] ++
  [0x4cc5d4becb3e42b6, 0x597f299cfc657e2a, 0x5fcb6fab3ad6faec, 0x6c44198c4a475817]

/-- `W[t]` from the words before it, newest first (R232). From a block of 128 bytes there are 16 or more of them; a word that is
not there reads as 0 (DESIGN CHOICE, notes/assumptions/14.md). -/
def sha512Next (r : List Word64) : Word64 :=
  ssig1_64 (r.getD 1 0) + r.getD 6 0 + ssig0_64 (r.getD 14 0) + r.getD 15 0

/-- The schedule W[0..79] (R232). -/
def sha512Schedule (blk : List Byte) : List Word64 :=
  (extendSchedule sha512Next 64 (unpackBE64 blk).reverse).reverse

/-- One round with its constant and schedule word (R240). -/
def sha512Round (v : Work8 64) (kt wt : Word64) : Work8 64 :=
  let t1 := v.h + bsig1_64 v.e + ch v.e v.f v.g + kt + wt
  let t2 := bsig0_64 v.a + maj v.a v.b v.c
  ⟨t1 + t2, v.a, v.b, v.c, v.d + t1, v.e, v.f, v.g⟩

/-- SHA512_COMPRESS (R240), on 128 bytes. For another length: notes/assumptions/14.md (DESIGN CHOICE). -/
def sha512Compress (hin : Work8 64) (blk : List Byte) : Work8 64 :=
  let v := (sha512K.zip (sha512Schedule blk)).foldl (fun v kw => sha512Round v kw.1 kw.2) hin
  ⟨hin.a + v.a, hin.b + v.b, hin.c + v.c, hin.d + v.d, hin.e + v.e, hin.f + v.f, hin.g + v.g, hin.h + v.h⟩

end Sys2Proof.Machine
end

