-- ==== Sys2Proof/Machine/Compress.lean ====
section
/-! DEFINITION. The hash-state file as the cores see it, the initial vectors and the dispatch to a core
(10_state.md R22; 40_engine_commands.md R91, R100). -/

namespace Sys2Proof.Machine

/-- `zext_64` of a 32-bit state word (00_scope.md R10). -/
def zext64 (w : Word32) : Word64 := w.setWidth 64

/-- `H[i][31:0]` (10_state.md R22). -/
def low32 (w : Word64) : Word32 := w.setWidth 32

/-- H[0..3] as 32-bit words. -/
def readWork4 (h : HashFile) : Work4 :=
  ⟨low32 h[0], low32 h[1], low32 h[2], low32 h[3]⟩

/-- H[0..4] as 32-bit words. -/
def readWork5 (h : HashFile) : Work5 :=
  ⟨low32 h[0], low32 h[1], low32 h[2], low32 h[3], low32 h[4]⟩

/-- H[0..7] as 32-bit words. -/
def readWork8x32 (h : HashFile) : Work8 32 :=
  ⟨low32 h[0], low32 h[1], low32 h[2], low32 h[3], low32 h[4], low32 h[5], low32 h[6], low32 h[7]⟩

/-- H[0..7] as 64-bit words. -/
def readWork8x64 (h : HashFile) : Work8 64 :=
  ⟨h[0], h[1], h[2], h[3], h[4], h[5], h[6], h[7]⟩

/-- H[0..3] written with 32-bit words, upper halves 0, the other registers kept. -/
def writeWork4 (h : HashFile) (v : Work4) : HashFile :=
  #v[zext64 v.a, zext64 v.b, zext64 v.c, zext64 v.d, h[4], h[5], h[6], h[7]]

/-- H[0..4] written with 32-bit words, upper halves 0, the other registers kept. -/
def writeWork5 (h : HashFile) (v : Work5) : HashFile :=
  #v[zext64 v.a, zext64 v.b, zext64 v.c, zext64 v.d, zext64 v.e, h[5], h[6], h[7]]

/-- H[0..7] from 32-bit words, upper halves 0. -/
def writeWork8x32 (v : Work8 32) : HashFile :=
  #v[zext64 v.a, zext64 v.b, zext64 v.c, zext64 v.d, zext64 v.e, zext64 v.f, zext64 v.g, zext64 v.h]

/-- H[0..7] from 64-bit words. -/
def writeWork8x64 (v : Work8 64) : HashFile :=
  #v[v.a, v.b, v.c, v.d, v.e, v.f, v.g, v.h]

/-- A file of eight zero registers. -/
def zeroHash : HashFile := #v[0, 0, 0, 0, 0, 0, 0, 0]

/-- What INIT loads into H: IV(alg), zero-extended, and 0 in the words n..7 (40_engine_commands.md R81, R91). -/
def initialHash : Alg → HashFile
  | .md4 => writeWork4 zeroHash md4IV
  | .md5 => writeWork4 zeroHash md5IV
  | .sha1 => writeWork5 zeroHash sha1IV
  | .sha224 => writeWork8x32 sha224IV
  | .sha256 => writeWork8x32 sha256IV
  | .sha384 => writeWork8x64 sha384IV
  | .sha512 => writeWork8x64 sha512IV

/-- The compression of one block by the core the algorithm selects (R100). The type takes any list; COMPRESS passes bs bytes, and
what a core answers for another length is the model's own (DESIGN CHOICE, notes/assumptions/14.md). With the sequencer and the rotator, its five cores
make the seven units of the table of 00_scope.md R2, whose sentence says eight parts (DEDUCED, notes/assumptions/15.md). -/
def compressHash (alg : Alg) (h : HashFile) (blk : List Byte) : HashFile :=
  match alg with
  | .md4 => writeWork4 h (md4Compress (readWork4 h) blk)
  | .md5 => writeWork4 h (md5Compress (readWork4 h) blk)
  | .sha1 => writeWork5 h (sha1Compress (readWork5 h) blk)
  | .sha224 => writeWork8x32 (sha256Compress (readWork8x32 h) blk)
  | .sha256 => writeWork8x32 (sha256Compress (readWork8x32 h) blk)
  | .sha384 => writeWork8x64 (sha512Compress (readWork8x64 h) blk)
  | .sha512 => writeWork8x64 (sha512Compress (readWork8x64 h) blk)

end Sys2Proof.Machine
end

