-- ==== Sys2Proof/Machine/Operands.lean ====
section
/-! DEFINITION. The operands of a command as the engine reads them: the payload of UPDATE, the length field of FINALIZE and the
bytes of the digest. -/

namespace Sys2Proof.Machine

/-- The payload of an UPDATE of nb bytes: byte k is `DATA[8k+7:8k]` for k < nb, and bytes k ≥ nb are ignored
(30_encoding.md R65; 40_engine_commands.md R82). -/
def payload (nb : Nat) (data : Word32) : List Byte :=
  [data.extractLsb' 0 8, data.extractLsb' 8 8, data.extractLsb' 16 8, data.extractLsb' 24 8].take nb

/-- The 8 bytes of the length field, `(LEN × 8) mod 2^64` in the algorithm's byte order (20_memory.md R43;
40_engine_commands.md R96). -/
def lengthField (alg : Alg) (len : Word64) : List Byte :=
  if alg.littleEndian then unLE64 (len * 8) else unBE64 (len * 8)

/-- `ser` of 10_state.md R31: one state word in the algorithm's output byte order. -/
def serWord (alg : Alg) (w : Word64) : List Byte :=
  match alg with
  | .md4 | .md5 => unLE32 (low32 w)
  | .sha1 | .sha224 | .sha256 => unBE32 (low32 w)
  | .sha384 | .sha512 => unBE64 w

/-- `DIGEST` of 10_state.md R31: the words H[0..n-1] serialized and truncated to N bytes. -/
def digestOf (alg : Alg) (h : HashFile) : List Byte :=
  ((h.toList.take alg.stateWords).flatMap (serWord alg)).take alg.digestBytes

/-- `DIGEST[idx]`, for idx < N (40_engine_commands.md R88). -/
def digestByte (alg : Alg) (h : HashFile) (idx : Nat) : Byte :=
  (digestOf alg h).getD idx 0

end Sys2Proof.Machine
end

