-- ==== Sys2Proof/Machine/Ops.lean ====
section
/-! DEFINITION. The operations the commands share: responding, raising an error, COMPRESS, ABSORB, PAD_AND_FINISH, the reset event and
taking the host's next move. -/

namespace Sys2Proof.Machine

/-! ## Responses and errors -/

/-- Gives the host a response (30_encoding.md R71). -/
def respond (code : RespCode) (rdata : Word32) (s : State) : State :=
  { s with responses := s.responses ++ [⟨code, rdata⟩] }

/-- THE ONE EXCEPTION OPERATION of this hardware: `raise e` (60_exceptions.md R254). It writes LAST_ERR = e and ERR_STICKY = 1,
responds (e, 0) and writes nothing else. Nothing is saved, no mode changes and there is no handler (R258). Nothing has to be
returned from: the engine is ready for the next command at once (R259). -/
def raise (e : RespCode) (s : State) : State :=
  respond e 0 (noteError e s)

/-- The end of a command that completes: LAST_ERR = 0 and the response (0, rdata) (40_engine_commands.md R80 steps 5 and 6). -/
def complete (rdata : Word32) (s : State) : State :=
  respond .ok rdata (noteOk s)

/-! ## The block engine -/

/-- COMPRESS() (40_engine_commands.md R100). -/
def compress (s : State) : State :=
  { s with h := compressHash s.alg s.h (s.buf.readBytes 0 s.alg.blockSize) }

/-- ABSORB(b) (40_engine_commands.md R84). The sum FILL + 1 is taken as a number, since it reaches bs for an instant
(10_state.md R25). -/
def absorb (s : State) (b : Byte) : State :=
  let next := s.fill.toNat + 1
  let s1 := { s with buf := s.buf.write s.fill b, len := s.len + 1 }
  if next = s.alg.blockSize then { compress s1 with fill := 0 }
  else { s1 with fill := BitVec.ofNat 7 next }

/-- ABSORB over a byte sequence, in order (R83). -/
def absorbBytes (s : State) (bytes : List Byte) : State :=
  bytes.foldl absorb s

/-- `limit` of R92 under the state's PAD_LIMIT_128. -/
def padLimit (s : State) : Nat := padLimitOf s.padLimit128 s.alg

/-- Step 1 of the padding: 0x80 at BUF[FILL] (R93). The fill-count after it is FILL + 1. -/
def padMark (s : State) : State :=
  { s with buf := s.buf.write s.fill 0x80 }

/-- Step 2, with the fill-count n after step 1: the extra block, when the length field does not fit (R94). It answers the
state and the fill-count. -/
def padExtraBlock (n : Nat) (s : State) : State × Nat :=
  if padLimit s < n then (compress { s with buf := s.buf.zeroFill n s.alg.blockSize }, 0)
  else (s, n)

/-- Steps 3 and 4, with the fill-count n: zeros up to bs - 8, then the length field in the last 8 bytes (R95, R96). -/
def padLength (n : Nat) (s : State) : State :=
  { s with buf := (s.buf.zeroFill n (s.alg.blockSize - 8)).writeBytes (s.alg.blockSize - 8) (lengthField s.alg s.len) }

/-- PAD_AND_FINISH (R92 to R97), up to the write of FILL. -/
def padAndFinish (s : State) : State :=
  let r := padExtraBlock (s.fill.toNat + 1) (padMark s)
  compress (padLength r.2 r.1)

/-! ## Phase checks -/

/-- PHASE ∈ {1, 2}, the precondition of UPDATE and FINALIZE (60_exceptions.md R252). -/
def Phase.accepting : Phase → Bool
  | .unconfigured => false
  | .fresh => true
  | .accumulating => true
  | .finalized => false

/-! ## The whole commands, once for each opcode -/

/-- INIT (R81). BUF is not written. -/
def initEngine (a : Alg) (s : State) : State :=
  respond .ok 0 (clearErrors { s with alg := a, h := initialHash a, len := 0, fill := 0, phase := .fresh })

/-- UPDATE of the bytes of its payload (R83). -/
def updateEngine (bytes : List Byte) (s : State) : State :=
  if s.phase.accepting then complete 0 { absorbBytes s bytes with phase := .accumulating }
  else raise .invalidState s

/-- FINALIZE (R86). -/
def finalizeEngine (s : State) : State :=
  if s.phase.accepting then complete 0 { padAndFinish s with fill := 0, phase := .finalized }
  else raise .invalidState s

/-- READ_DIGEST (R88); the phase is checked before the index (60_exceptions.md R255). -/
def readDigest (idx : Nat) (s : State) : State :=
  if s.phase = .finalized then
    if idx < s.alg.digestBytes then complete ((digestByte s.alg s.h idx).setWidth 32) s
    else raise .indexRange s
  else raise .invalidState s

/-- READ_STATUS (R90): it writes no register. -/
def readStatus (s : State) : State :=
  respond .ok (statusWord s) s

/-! ## The host's moves -/

/-- The reset event (70_reset_and_hazards.md R280 to R282). H becomes the free value `Config.resetHash` (unspecified: R280), BUF is not
written (R282), and no response is given. -/
def takeReset (s : State) : State :=
  { s with
    phase := .unconfigured, alg := .md4, len := 0, fill := 0, lastErr := .ok, errSticky := false,
    h := Vector.ofFn (Config.resetHash s.resets), resets := s.resets + 1 }

/-- The host's next move, and the state without it; none when the host makes no move. -/
def takeMove (s : State) : Option (HostMove × State) :=
  match s.host with
  | [] => none
  | m :: rest => some (m, { s with host := rest })

/-- The state in which the host issues this command word next, before what it was going to do. -/
def issueCommand (w : Word64) (s : State) : State :=
  { s with host := .command w :: s.host }

end Sys2Proof.Machine
end

