-- ==== Sys2Proof/Machine/DigestCommands.lean ====
section
/-! DEFINITION. FINALIZE, READ_DIGEST and READ_STATUS (40_engine_commands.md R86, R88, R90). -/

namespace Sys2Proof.Machine

/-- `finalize` (R86). -/
def execFinalize (s : State) : Host.Outcome State Fault Refusal := .next (finalizeEngine s)

/-- `rdig idx` (R88). -/
def execRdigIdx (idx : BitVec 8) (s : State) : Host.Outcome State Fault Refusal := .next (readDigest idx.toNat s)

/-- `rstat` (R90). -/
def execRstat (s : State) : Host.Outcome State Fault Refusal := .next (readStatus s)

end Sys2Proof.Machine
end

