-- ==== Sys2Proof/Machine/InitCommands.lean ====
section
/-! DEFINITION. The seven INIT commands (40_engine_commands.md R81), one for each ALG code (30_encoding.md R64). -/

namespace Sys2Proof.Machine

/-- `init md4` (R81, ALG 0). -/
def execInitMd4 (s : State) : Host.Outcome State Fault Refusal := .next (initEngine .md4 s)

/-- `init md5` (R81, ALG 1). -/
def execInitMd5 (s : State) : Host.Outcome State Fault Refusal := .next (initEngine .md5 s)

/-- `init sha1` (R81, ALG 2). -/
def execInitSha1 (s : State) : Host.Outcome State Fault Refusal := .next (initEngine .sha1 s)

/-- `init sha224` (R81, ALG 3). -/
def execInitSha224 (s : State) : Host.Outcome State Fault Refusal := .next (initEngine .sha224 s)

/-- `init sha256` (R81, ALG 4). -/
def execInitSha256 (s : State) : Host.Outcome State Fault Refusal := .next (initEngine .sha256 s)

/-- `init sha384` (R81, ALG 5). -/
def execInitSha384 (s : State) : Host.Outcome State Fault Refusal := .next (initEngine .sha384 s)

/-- `init sha512` (R81, ALG 6). -/
def execInitSha512 (s : State) : Host.Outcome State Fault Refusal := .next (initEngine .sha512 s)

end Sys2Proof.Machine
end

