-- ==== Sys2Proof/Machine/UpdateCommands.lean ====
section
/-! DEFINITION. The five UPDATE commands (40_engine_commands.md R83), one for each byte count NB (30_encoding.md R65). -/

namespace Sys2Proof.Machine

/-- `update` (R83, NB 0): the empty update. -/
def execUpdate (data : Word32) (s : State) : Host.Outcome State Fault Refusal :=
  .next (updateEngine (payload 0 data) s)

/-- `update b0` (R83, NB 1). -/
def execUpdateB0 (data : Word32) (s : State) : Host.Outcome State Fault Refusal :=
  .next (updateEngine (payload 1 data) s)

/-- `update b0, b1` (R83, NB 2). -/
def execUpdateB0B1 (data : Word32) (s : State) : Host.Outcome State Fault Refusal :=
  .next (updateEngine (payload 2 data) s)

/-- `update b0, b1, b2` (R83, NB 3). -/
def execUpdateB0B1B2 (data : Word32) (s : State) : Host.Outcome State Fault Refusal :=
  .next (updateEngine (payload 3 data) s)

/-- `update b0, b1, b2, b3` (R83, NB 4). -/
def execUpdateB0B1B2B3 (data : Word32) (s : State) : Host.Outcome State Fault Refusal :=
  .next (updateEngine (payload 4 data) s)

end Sys2Proof.Machine
end

