-- ==== Sys2Proof/Machine/Dispatch.lean ====
section
/-! DEFINITION. One arm for each command. -/

namespace Sys2Proof.Machine

def exec (i : Instr) (s : State) : Host.Outcome State Fault Refusal :=
  match i with
  | .initMd4 => Sys2Proof.Machine.execInitMd4 s
  | .initMd5 => Sys2Proof.Machine.execInitMd5 s
  | .initSha1 => Sys2Proof.Machine.execInitSha1 s
  | .initSha224 => Sys2Proof.Machine.execInitSha224 s
  | .initSha256 => Sys2Proof.Machine.execInitSha256 s
  | .initSha384 => Sys2Proof.Machine.execInitSha384 s
  | .initSha512 => Sys2Proof.Machine.execInitSha512 s
  | .update data => Sys2Proof.Machine.execUpdate data s
  | .updateB0 data => Sys2Proof.Machine.execUpdateB0 data s
  | .updateB0B1 data => Sys2Proof.Machine.execUpdateB0B1 data s
  | .updateB0B1B2 data => Sys2Proof.Machine.execUpdateB0B1B2 data s
  | .updateB0B1B2B3 data => Sys2Proof.Machine.execUpdateB0B1B2B3 data s
  | .finalize => Sys2Proof.Machine.execFinalize s
  | .rdigIdx idx => Sys2Proof.Machine.execRdigIdx idx s
  | .rstat => Sys2Proof.Machine.execRstat s

end Sys2Proof.Machine
end

