-- ==== Sys2Proof/Machine/Step.lean ====
section
/-! DEFINITION. One step of the machine: the host's next move, taken whole (00_scope.md R14, R17; 40_engine_commands.md R80). -/

namespace Sys2Proof.Machine

/-- One step. The host's next command word is decoded and executed; an illegal word raises IllegalCommand in every phase
(60_exceptions.md R251); a reset event is a step of its own (70_reset_and_hazards.md R281). While the host makes no move the
engine holds its state (60_exceptions.md R267). -/
def step (s : State) : Host.Outcome State Fault Refusal :=
  match takeMove s with
  | none => .next s
  | some (.reset, s1) => .next (takeReset s1)
  | some (.command w, s1) =>
    match decode w with
    | .command i => exec i s1
    | .illegal _ => .next (raise .illegalCommand s1)

/-- The state in which the next step runs the command of an opcode-table word: the host issues that word next. -/
def State.withFetchWord (s : State) (nbits w : Nat) : State :=
  issueCommand (tableWord nbits w) s

end Sys2Proof.Machine
end

