-- ==== Sys2Proof/Machine/Pseudo.lean ====
section
/-! DEFINITION. The pseudo-instructions and their expansions into commands (30_encoding.md R73; 70_reset_and_hazards.md R284). -/

namespace Sys2Proof.Machine

/-- The INIT command of an algorithm (30_encoding.md R64). -/
def initCommand : Alg → Instr
  | .md4 => .initMd4
  | .md5 => .initMd5
  | .sha1 => .initSha1
  | .sha224 => .initSha224
  | .sha256 => .initSha256
  | .sha384 => .initSha384
  | .sha512 => .initSha512

/-- The bytes an UPDATE command absorbs, none for another command (30_encoding.md R65). -/
def updatePayload : Instr → Option (List Byte)
  | .initMd4 | .initMd5 | .initSha1 | .initSha224 | .initSha256 | .initSha384 | .initSha512 => none
  | .update data => some (payload 0 data)
  | .updateB0 data => some (payload 1 data)
  | .updateB0B1 data => some (payload 2 data)
  | .updateB0B1B2 data => some (payload 3 data)
  | .updateB0B1B2B3 data => some (payload 4 data)
  | .finalize => none
  | .rdigIdx _ => none
  | .rstat => none

/-- The `update` commands that carry bytes 4j..4j+3 in order, the last carrying the remaining 1 to 4 (R73). Absent bytes are 0
(R72). -/
def absorbChunks : List Byte → List Instr
  | b0 :: b1 :: b2 :: b3 :: rest => .updateB0B1B2B3 (le32 b0 b1 b2 b3) :: absorbChunks rest
  | [b0, b1, b2] => [.updateB0B1B2 (le32 b0 b1 b2 0)]
  | [b0, b1] => [.updateB0B1 (le32 b0 b1 0 0)]
  | [b0] => [.updateB0 (le32 b0 0 0 0)]
  | [] => []

/-- `absorb <bytes>`: one `update` when there is no byte, else the chunks (R73). -/
def absorbCommands (bytes : List Byte) : List Instr :=
  if bytes.isEmpty then [.update 0] else absorbChunks bytes

/-- `digest`: `rdig 0` to `rdig N-1` for the N of the current algorithm (R73). -/
def digestCommands (alg : Alg) : List Instr :=
  (List.range alg.digestBytes).map (fun i => .rdigIdx (BitVec.ofNat 8 i))

/-- `sum <alg>, <bytes>`: `init <alg>`, `absorb <bytes>`, `finalize`, `digest` (R73). -/
def sumCommands (alg : Alg) (bytes : List Byte) : List Instr :=
  initCommand alg :: (absorbCommands bytes ++ .finalize :: digestCommands alg)

end Sys2Proof.Machine
end

