-- ==== Sys2Proof/Machine/Assembler.lean ====
section
/-! DEFINITION. The assembly syntax of 30_encoding.md R72 and R73: one command a line, `;` starts a comment, numbers are decimal or
`0x` hexadecimal. What the rules leave open of the text is said in notes/assumptions/11.md. -/

namespace Sys2Proof.Machine

/-- A token of a line. -/
inductive Token where
  /-- a mnemonic, an algorithm name or a number, as its characters -/
  | word (chars : List Char)
  /-- a quoted ASCII string -/
  | text (chars : List Char)
  | comma
deriving DecidableEq, Repr

/-- Where the lexer stands: what it is inside of, with the characters read so far, last first. -/
inductive LexMode where
  | between
  | inWord (rev : List Char)
  | inText (rev : List Char)
  | inComment
deriving DecidableEq, Repr

/-- The lexer's state: its mode and the tokens so far, last first. -/
structure Lexer where
  mode : LexMode
  rev : List Token
deriving DecidableEq, Repr

/-- One character that does not continue a word. -/
def lexFresh (rev : List Token) (c : Char) : Lexer :=
  if c = ' ' ∨ c = '\t' ∨ c = '\r' then ⟨.between, rev⟩
  else if c = ',' then ⟨.between, .comma :: rev⟩
  else if c = ';' then ⟨.inComment, rev⟩
  else if c = '"' then ⟨.inText [], rev⟩
  else ⟨.inWord [c], rev⟩

/-- Whether a character ends a word. -/
def endsWord (c : Char) : Bool :=
  decide (c = ' ' ∨ c = '\t' ∨ c = '\r' ∨ c = ',' ∨ c = ';' ∨ c = '"')

/-- The lexer's step over one character. -/
def lexChar (l : Lexer) (c : Char) : Lexer :=
  match l.mode with
  | .between => lexFresh l.rev c
  | .inWord rev =>
    if endsWord c then lexFresh (.word rev.reverse :: l.rev) c else { l with mode := .inWord (c :: rev) }
  | .inText rev =>
    if c = '"' then ⟨.between, .text rev.reverse :: l.rev⟩ else { l with mode := .inText (c :: rev) }
  | .inComment => l

/-- The tokens of a line, none where a string is not closed. -/
def lexLine (line : List Char) : Option (List Token) :=
  let l := line.foldl lexChar ⟨.between, []⟩
  match l.mode with
  | .between => some l.rev.reverse
  | .inWord rev => some (Token.word rev.reverse :: l.rev).reverse
  | .inText _ => none
  | .inComment => some l.rev.reverse

/-- The value of a digit below 16. -/
def digitValue (c : Char) : Option Nat :=
  if '0'.toNat ≤ c.toNat ∧ c.toNat ≤ '9'.toNat then some (c.toNat - '0'.toNat)
  else if 'a'.toNat ≤ c.toNat ∧ c.toNat ≤ 'f'.toNat then some (c.toNat - 'a'.toNat + 10)
  else if 'A'.toNat ≤ c.toNat ∧ c.toNat ≤ 'F'.toNat then some (c.toNat - 'A'.toNat + 10)
  else none

/-- Digits in a base, read after the value so far. -/
def parseDigits (base : Nat) : Nat → List Char → Option Nat
  | n, [] => some n
  | n, c :: rest =>
    match digitValue c with
    | some d => if d < base then parseDigits base (n * base + d) rest else none
    | none => none

/-- A number, decimal or `0x` hexadecimal (R72). -/
def parseNumber : List Char → Option Nat
  | [] => none
  | '0' :: 'x' :: c :: rest => parseDigits 16 0 (c :: rest)
  | c :: rest => parseDigits 10 0 (c :: rest)

/-- A number that is a byte. -/
def parseByte (chars : List Char) : Option Byte :=
  match parseNumber chars with
  | some n => if n < 256 then some (BitVec.ofNat 8 n) else none
  | none => none

/-- One or more bytes separated by commas. -/
def parseBytes : List Token → Option (List Byte)
  | [.word w] => (parseByte w).map (fun b => [b])
  | .word w :: .comma :: rest =>
    match parseByte w, parseBytes rest with
    | some b, some bs => some (b :: bs)
    | _, _ => none
  | _ => none

/-- The byte of an ASCII character. -/
def asciiByte (c : Char) : Option Byte :=
  if c.toNat < 128 then some (BitVec.ofNat 8 c.toNat) else none

/-- `<bytes>` of R73: a quoted ASCII string or a list of bytes, which may be empty. -/
def parseMessage : List Token → Option (List Byte)
  | [] => some []
  | [.text cs] => cs.mapM asciiByte
  | toks => parseBytes toks

/-- The algorithm names of `init` (R72). -/
def parseAlg (chars : List Char) : Option Alg :=
  if chars = "md4".toList then some .md4
  else if chars = "md5".toList then some .md5
  else if chars = "sha1".toList then some .sha1
  else if chars = "sha224".toList then some .sha224
  else if chars = "sha256".toList then some .sha256
  else if chars = "sha384".toList then some .sha384
  else if chars = "sha512".toList then some .sha512
  else none

/-- `update b0, …` with 0 to 4 bytes; absent bytes of DATA are 0 (R72). -/
def updateOf : List Byte → Option Instr
  | [] => some (.update 0)
  | [b0] => some (.updateB0 (le32 b0 0 0 0))
  | [b0, b1] => some (.updateB0B1 (le32 b0 b1 0 0))
  | [b0, b1, b2] => some (.updateB0B1B2 (le32 b0 b1 b2 0))
  | [b0, b1, b2, b3] => some (.updateB0B1B2B3 (le32 b0 b1 b2 b3))
  | _ => none

/-- The operands of `update`. -/
def assembleUpdate : List Token → Option Instr
  | [] => updateOf []
  | toks => (parseBytes toks).bind updateOf

/-- The index of `rdig`, 0 to 63 (R72, R67). -/
def assembleReadDigest (chars : List Char) : Option Instr :=
  match parseNumber chars with
  | some n => if n < 64 then some (.rdigIdx (BitVec.ofNat 8 n)) else none
  | none => none

/-- What a line assembles to: its commands, and the current algorithm after it, which `digest` needs (R73). -/
structure Assembled where
  commands : List Instr
  current : Option Alg
deriving DecidableEq, Repr

/-- A line with operands. -/
def assembleOperation (current : Option Alg) (name : List Char) (operands : List Token) : Option Assembled :=
  if name = "init".toList then
    match operands with
    | [.word a] => (parseAlg a).map (fun alg => ⟨[initCommand alg], some alg⟩)
    | _ => none
  else if name = "update".toList then (assembleUpdate operands).map (fun i => ⟨[i], current⟩)
  else if name = "finalize".toList then (if operands = [] then some ⟨[.finalize], current⟩ else none)
  else if name = "rdig".toList then
    match operands with
    | [.word n] => (assembleReadDigest n).map (fun i => ⟨[i], current⟩)
    | _ => none
  else if name = "rstat".toList then (if operands = [] then some ⟨[.rstat], current⟩ else none)
  else if name = "absorb".toList then (parseMessage operands).map (fun bytes => ⟨absorbCommands bytes, current⟩)
  else if name = "digest".toList then
    (if operands = [] then current.map (fun alg => ⟨digestCommands alg, some alg⟩) else none)
  else if name = "sum".toList then
    match operands with
    | .word a :: .comma :: rest =>
      match parseAlg a, parseMessage rest with
      | some alg, some bytes => some ⟨sumCommands alg bytes, some alg⟩
      | _, _ => none
    | _ => none
  else none

/-- One line. An empty line, or one that holds only a comment, is no command. -/
def assembleLine (current : Option Alg) (line : List Char) : Option Assembled :=
  match lexLine line with
  | none => none
  | some [] => some ⟨[], current⟩
  | some (.word name :: operands) => assembleOperation current name operands
  | some _ => none

/-- Lines after the current algorithm; none where a line is not in the syntax. -/
def assembleLines : Option Alg → List (List Char) → Option (List Instr)
  | _, [] => some []
  | current, line :: rest =>
    match assembleLine current line with
    | none => none
    | some a => (assembleLines a.current rest).map (fun more => a.commands ++ more)

/-- The command words of a program of this syntax. -/
def assemble (lines : List (List Char)) : Option (List Word64) :=
  (assembleLines none lines).map (fun is => is.map encode)

end Sys2Proof.Machine
end

