-- ==== Sys2Proof/Safety.lean ====
section
/-! DEFINITION. What a legal state is, what message a state stands for, and what the host can observe: the terms the
claims use. Nothing here is part of the machine. -/

namespace Sys2Proof.Machine

/-! ## Legal states (10_state.md R33) -/

/-- R33.1 and R33.2: the fill-count is below the block size and is LEN mod bs while a message is taken, and 0 otherwise. -/
def FillLegal (s : State) : Prop :=
  if s.phase.accepting then s.fill.toNat < s.alg.blockSize ∧ s.len.toNat % s.alg.blockSize = s.fill.toNat
  else s.fill = 0

/-- R33.3: the upper halves of H are 0 for W = 32, and the words n..7 are 0. Both are said of PHASE ≠ 0, since reset
leaves H unspecified (R22; notes/assumptions/7.md). -/
def HashLegal (s : State) : Prop :=
  s.phase ≠ .unconfigured →
    ∀ i : Fin 8, (s.alg.wordBits = 32 → s.h[i].toNat < 2 ^ 32) ∧ (s.alg.stateWords ≤ i.val → s.h[i] = 0)

/-- A legal state between commands: R33.1 to R33.3, and the memory in its canonical form. -/
structure Legal (s : State) : Prop where
  fill : FillLegal s
  hash : HashLegal s
  memory : s.buf.wf

/-! ## The Merkle–Damgård hash of a message (40_engine_commands.md R99) -/

/-- The compression of the first n blocks of a byte sequence, in order. -/
def compressBlocks (alg : Alg) : Nat → HashFile → List Byte → HashFile
  | 0, h, _ => h
  | n + 1, h, bytes =>
    compressBlocks alg n (compressHash alg h (bytes.take alg.blockSize)) (bytes.drop alg.blockSize)

/-- The hash state after every whole block of a byte sequence, from the initial vector. -/
def hashWholeBlocks (alg : Alg) (bytes : List Byte) : HashFile :=
  compressBlocks alg (bytes.length / alg.blockSize) (initialHash alg) bytes

/-- The number of zero bytes z of R99, `((limit - (L + 1)) mod bs) + (bs - 8 - limit)` with an integer difference. -/
def padZeros (p : PadLimit128) (alg : Alg) (L : Nat) : Nat :=
  (((padLimitOf p alg : Int) - ((L : Int) + 1)) % (alg.blockSize : Int)).toNat + (alg.blockSize - 8 - padLimitOf p alg)

/-- The padded message M' of R99. -/
def paddedMessage (p : PadLimit128) (alg : Alg) (msg : List Byte) : List Byte :=
  msg ++ [0x80] ++ List.replicate (padZeros p alg msg.length) 0 ++ lengthField alg (BitVec.ofNat 64 msg.length)

/-- The final hash state of a message: every block of M', from the initial vector (R99). -/
def messageHash (p : PadLimit128) (alg : Alg) (msg : List Byte) : HashFile :=
  hashWholeBlocks alg (paddedMessage p alg msg)

/-- The digest of a message (R98, R104). -/
def messageDigest (p : PadLimit128) (alg : Alg) (msg : List Byte) : List Byte :=
  digestOf alg (messageHash p alg msg)

/-! ## What message a state stands for -/

/-- The state of a message still being taken, of which `msg` has been absorbed: LEN and FILL count it, H is the hash of its
whole blocks and BUF holds the rest (10_state.md R23 to R25; 20_memory.md R41). -/
structure Absorbed (s : State) (msg : List Byte) : Prop where
  phase : s.phase.accepting = true
  len : s.len = BitVec.ofNat 64 msg.length
  fill : s.fill.toNat = msg.length % s.alg.blockSize
  hash : s.h = hashWholeBlocks s.alg msg
  tail : s.buf.readBytes 0 s.fill.toNat = msg.drop (msg.length / s.alg.blockSize * s.alg.blockSize)

/-- The state of a finished message (10_state.md R31; 40_engine_commands.md R98). -/
structure Finished (s : State) (msg : List Byte) : Prop where
  phase : s.phase = .finalized
  len : s.len = BitVec.ofNat 64 msg.length
  fill : s.fill = 0
  hash : s.h = messageHash s.padLimit128 s.alg msg

/-- A state that stands for some message, or for none because no INIT has come yet. -/
def StandsForMessage (s : State) : Prop :=
  s.phase = .unconfigured ∨ ∃ msg, Absorbed s msg ∨ Finished s msg

/-! ## What the host can observe -/

/-- The words of H a core or the digest reads: words 0..n-1, and of each only the low half when W = 32 (10_state.md R22;
93_implementation_defined.md U7). -/
def visibleHash (alg : Alg) (h : HashFile) : List Word64 :=
  (h.toList.take alg.stateWords).map (fun w => if alg.wordBits = 32 then zext64 (low32 w) else w)

/-- Two states the host cannot tell apart: they differ at most in H before the first INIT, in the words and halves of H that no
core reads, and in the bytes of BUF at index FILL and above (10_state.md R22, R24, R33.4). -/
structure Alike (s t : State) : Prop where
  phase : s.phase = t.phase
  alg : s.alg = t.alg
  len : s.len = t.len
  fill : s.fill = t.fill
  lastErr : s.lastErr = t.lastErr
  errSticky : s.errSticky = t.errSticky
  padLimit128 : s.padLimit128 = t.padLimit128
  host : s.host = t.host
  responses : s.responses = t.responses
  resets : s.resets = t.resets
  hash : s.phase ≠ .unconfigured → visibleHash s.alg s.h = visibleHash t.alg t.h
  buf : s.phase.accepting = true → s.buf.readBytes 0 s.fill.toNat = t.buf.readBytes 0 t.fill.toNat

/-! ## The spec's own tables and field numbers, transcribed for the claims -/

/-- The field of n bits from bit lo upwards of a value, as a number (00_scope.md R10). -/
def fieldAt (value lo n : Nat) : Nat := value / 2 ^ lo % 2 ^ n

/-- The initial vectors as the core files print them (40_engine_commands.md R91), the words n..7 as 0 (R81). -/
def specIV : Alg → List Nat
  | .md4 => [0x67452301, 0xefcdab89, 0x98badcfe, 0x10325476, 0, 0, 0, 0]
  | .md5 => [0x67452301, 0xefcdab89, 0x98badcfe, 0x10325476, 0, 0, 0, 0]
  | .sha1 => [0x67452301, 0xefcdab89, 0x98badcfe, 0x10325476, 0xc3d2e1f0, 0, 0, 0]
  | .sha224 => [0xc1059ed8, 0x367cd507, 0x3070dd17, 0xf70e5939, 0xffc00b31, 0x68581511, 0x64f98fa7, 0xbefa4fa4]
  | .sha256 => [0x6a09e667, 0xbb67ae85, 0x3c6ef372, 0xa54ff53a, 0x510e527f, 0x9b05688c, 0x1f83d9ab, 0x5be0cd19]
  | .sha384 => [0xcbbb9d5dc1059ed8, 0x629a292a367cd507, 0x9159015a3070dd17, 0x152fecd8f70e5939,
                0x67332667ffc00b31, 0x8eb44a8768581511, 0xdb0c2e0d64f98fa7, 0x47b5481dbefa4fa4]
  | .sha512 => [0x6a09e667f3bcc908, 0xbb67ae8584caa73b, 0x3c6ef372fe94f82b, 0xa54ff53a5f1d36f1,
                0x510e527fade682d1, 0x9b05688c2b3e6c1f, 0x1f83d9abfb41bd6b, 0x5be0cd19137e2179]

/-- Byte idx of the digest as a number, from the state word it lies in: byte idx mod (W/8) of word idx div (W/8), counted from
the low end for MD4/MD5 and from the high end otherwise (10_state.md R31). -/
def digestByteOfWord (alg : Alg) (word idx : Nat) : Nat :=
  let bytes := alg.wordBits / 8
  fieldAt word (8 * (if alg.littleEndian then idx % bytes else bytes - 1 - idx % bytes)) 8

/-- The addresses ABSORB stores to for each byte of a payload in turn: FILL at that time (40_engine_commands.md R84). -/
def absorbAddresses : State → List Byte → List (BitVec 7)
  | _, [] => []
  | s, b :: rest => s.fill :: absorbAddresses (absorb s b) rest

/-! ## Runs -/

/-- The moves of a host that issues these commands. -/
def issuing (commands : List Instr) : List HostMove :=
  commands.map (fun i => .command (encode i))

/-- The payloads of UPDATE commands, one after the other; none when one of them is no UPDATE. -/
def payloads : List Instr → Option (List Byte)
  | [] => some []
  | i :: rest =>
    match updatePayload i, payloads rest with
    | some bytes, some more => some (bytes ++ more)
    | _, _ => none

end Sys2Proof.Machine
end

