-- ==== Sys2Proof/Certificates/Slice0/Obligations.lean ====
section
/-! DEFINITION. The statements about the merkle_damgaard_engine, each from the numbered rules of its spec. -/

section
open Sys2Proof Sys2Proof.Machine

/-! ## Encoding -/

/-- 95_test_vectors.md §2.1: these words decode as the spec lists them. The names of the reasons are the model's
(notes/assumptions/12.md). -/
def Obligations.DecodeReadsTheListedWords : Prop :=
  decode 0x1000000000000000 = .command .initMd4 ∧
  decode 0x1006000000000000 = .command .initSha512 ∧
  decode 0x2003000000636261 = .command (.updateB0B1B2 0x636261) ∧
  decode 0x20000000deadbeef = .command (.update 0xdeadbeef) ∧
  decode 0x3000000000000000 = .command .finalize ∧
  decode 0x403f000000000000 = .command (.rdigIdx 63) ∧
  decode 0x5000000000000000 = .command .rstat ∧
  decode 0x1007000000000000 = .illegal .argOutOfRange ∧
  decode 0x1100000000000000 = .illegal .reservedField ∧
  decode 0x1000000100000000 = .illegal .reservedField ∧
  decode 0x1000000000000001 = .illegal .dataNotZero ∧
  decode 0x2005000000000000 = .illegal .argOutOfRange ∧
  decode 0x4040000000000000 = .illegal .argOutOfRange ∧
  decode 0x0000000000000000 = .illegal .reservedOpcode ∧
  decode 0x6000000000000000 = .illegal .reservedOpcode

/-- 30_encoding.md §1 and §2: the decoder reads back every command from its word, every operand at every value. -/
def Obligations.DecodeOfEncodeIsTheCommand : Prop :=
  ∀ i : Instr, i.WellFormed → decode (encode i) = .command i

/-- 30_encoding.md §2 and §3: a word that decodes is the word of one well-formed command, so no two words mean the same command. -/
def Obligations.EncodeOfDecodeIsTheWord : Prop :=
  ∀ (w : Word64) (i : Instr), decode w = .command i → i.WellFormed ∧ encode i = w

/-- R70: "the decoder can be written from the table alone". A word that decodes lies in its row of spec/opcode_table.json, and
a word that lies in a row decodes to a command of that row. -/
def Obligations.DecodeAgreesWithTheOpcodeTable : Prop :=
  (∀ (w : Word64) (i : Instr), decode w = .command i → w &&& (tableRow i).2 = (tableRow i).1) ∧
  (∀ (w : Word64) (i : Instr), w &&& (tableRow i).2 = (tableRow i).1 →
    ∃ j, decode w = .command j ∧ tableRow j = tableRow i)

/-- R66, and with it R63 and R69: what every one of the 2^64 words decodes to, from its fields as numbers. -/
def Obligations.DecodeFollowsTheFieldRules : Prop :=
  ∀ w : Word64,
    let opc := fieldAt w.toNat 60 4
    let rsv1 := fieldAt w.toNat 56 4
    let arg := fieldAt w.toNat 48 8
    let rsv2 := fieldAt w.toNat 32 16
    let data := fieldAt w.toNat 0 32
    let d := BitVec.ofNat 32 data
    if rsv1 ≠ 0 ∨ rsv2 ≠ 0 then ∃ why, decode w = .illegal why
    else if opc = 1 ∧ arg ≤ 6 ∧ data = 0 then
      ∃ alg : Alg, alg.code.toNat = arg ∧ decode w = .command (initCommand alg)
    else if opc = 2 ∧ arg ≤ 4 then
      ∃ i, [Instr.update d, .updateB0 d, .updateB0B1 d, .updateB0B1B2 d, .updateB0B1B2B3 d][arg]? = some i ∧
        decode w = .command i
    else if opc = 3 ∧ arg = 0 ∧ data = 0 then decode w = .command .finalize
    else if opc = 4 ∧ arg ≤ 63 ∧ data = 0 then decode w = .command (.rdigIdx (BitVec.ofNat 8 arg))
    else if opc = 5 ∧ arg = 0 ∧ data = 0 then decode w = .command .rstat
    else ∃ why, decode w = .illegal why

/-- R70: how many of the 2^64 words are legal commands. -/
def Obligations.LegalCommandWordCount : Prop :=
  Nat.card { w : Word64 // ∃ i, decode w = .command i } = 7 + 5 * 2 ^ 32 + 1 + 64 + 1

/-! ## The step -/

/-- R80: when the host issues the word of a command, the step is the command's meaning on the state with that move taken.
The list of moves is the model's (notes/assumptions/4.md). -/
def Obligations.StepRunsTheDecodedCommand : Prop :=
  (∀ (s : State) (w : Word64) (rest : List HostMove) (i : Instr), s.host = .command w :: rest →
    decode w = .command i → step s = exec i { s with host := rest }) ∧
  (∀ (s : State) (w : Word64) (i : Instr), decode w = .command i →
    step (s.withFetchWord 64 w.toNat) = exec i s)

/-- R251 with R254: an illegal word is an IllegalCommand in every phase, before any phase check, and writes only the two error
fields. -/
def Obligations.IllegalWordRaisesIllegalCommand : Prop :=
  ∀ (s : State) (w : Word64) (rest : List HostMove), s.host = .command w :: rest → (∀ i, decode w ≠ .command i) →
    step s = .next { s with
      host := rest, lastErr := .illegalCommand, errSticky := true,
      responses := s.responses ++ [⟨.illegalCommand, 0⟩] }

/-- R280 to R282: the reset event, in every state, gives no response, and does not write BUF. It says nothing of H, which R280
leaves unspecified. That BUF keeps its bytes is the model's reading (notes/assumptions/8.md), and so is the parameter's place
(notes/assumptions/3.md). -/
def Obligations.ResetEventSetsTheResetValues : Prop :=
  ∀ (s : State) (rest : List HostMove), s.host = .reset :: rest →
    ∃ t, step s = .next t ∧ t.phase = .unconfigured ∧ t.alg = .md4 ∧ t.len = 0 ∧ t.fill = 0 ∧ t.lastErr = .ok ∧
      t.errSticky = false ∧ t.buf = s.buf ∧ t.responses = s.responses ∧ t.host = rest ∧
      t.padLimit128 = s.padLimit128

/-- R32: the reset values the spec gives, with the codes of PHASE and ALG, and STATUS = 0 right after reset (R90). The
default of PAD_LIMIT_128 is R9's; its place in the state is the model's (notes/assumptions/3.md). -/
def Obligations.ResetStateHasTheSpecValues : Prop :=
  State.reset.phase.code = 0 ∧ State.reset.alg.code = 0 ∧ State.reset.len = 0 ∧ State.reset.fill = 0 ∧
  State.reset.lastErr.code = 0 ∧ State.reset.errSticky = false ∧ State.reset.padLimit128.value = 112 ∧
  statusWord State.reset = 0

/-- R291: no command stops the machine: every step of every state answers a next state. The idle step is the model's
(notes/assumptions/4.md). -/
def Obligations.EveryStepAnswersANextState : Prop :=
  ∀ s : State, ∃ t, step s = .next t

/-! ## INIT -/

/-- R81: INIT completes in every state, whatever the phase, and writes exactly these fields; BUF is not written. -/
def Obligations.InitPutsTheEngineInFresh : Prop :=
  ∀ s : State,
    exec .initMd4 s = .next { s with
      alg := .md4, h := initialHash .md4, len := 0, fill := 0, phase := .fresh, lastErr := .ok, errSticky := false,
      responses := s.responses ++ [⟨.ok, 0⟩] } ∧
    exec .initMd5 s = .next { s with
      alg := .md5, h := initialHash .md5, len := 0, fill := 0, phase := .fresh, lastErr := .ok, errSticky := false,
      responses := s.responses ++ [⟨.ok, 0⟩] } ∧
    exec .initSha1 s = .next { s with
      alg := .sha1, h := initialHash .sha1, len := 0, fill := 0, phase := .fresh, lastErr := .ok, errSticky := false,
      responses := s.responses ++ [⟨.ok, 0⟩] } ∧
    exec .initSha224 s = .next { s with
      alg := .sha224, h := initialHash .sha224, len := 0, fill := 0, phase := .fresh, lastErr := .ok, errSticky := false,
      responses := s.responses ++ [⟨.ok, 0⟩] } ∧
    exec .initSha256 s = .next { s with
      alg := .sha256, h := initialHash .sha256, len := 0, fill := 0, phase := .fresh, lastErr := .ok, errSticky := false,
      responses := s.responses ++ [⟨.ok, 0⟩] } ∧
    exec .initSha384 s = .next { s with
      alg := .sha384, h := initialHash .sha384, len := 0, fill := 0, phase := .fresh, lastErr := .ok, errSticky := false,
      responses := s.responses ++ [⟨.ok, 0⟩] } ∧
    exec .initSha512 s = .next { s with
      alg := .sha512, h := initialHash .sha512, len := 0, fill := 0, phase := .fresh, lastErr := .ok, errSticky := false,
      responses := s.responses ++ [⟨.ok, 0⟩] }

/-- R91 with R150, R170, R190, R210, R211, R230, R231: the words INIT loads, as the core files print them. -/
def Obligations.InitLoadsThePrintedInitialVectors : Prop :=
  ∀ (alg : Alg) (s : State), ∃ t, exec (initCommand alg) s = .next t ∧ t.alg = alg ∧
    t.h.toList.map BitVec.toNat = specIV alg

/-! ## UPDATE -/

/-- R83: UPDATE in phase 1 or 2 absorbs its bytes in order and moves to Accumulating, also with no byte. -/
def Obligations.UpdateAbsorbsItsPayload : Prop :=
  ∀ (s : State) (data : Word32), s.phase = .fresh ∨ s.phase = .accumulating →
    let byte := fun k => BitVec.ofNat 8 (fieldAt data.toNat (8 * k) 8)
    let done := fun s1 : State =>
      { s1 with phase := .accumulating, lastErr := .ok, responses := s.responses ++ [⟨.ok, 0⟩] }
    exec (.update data) s = .next (done s) ∧
    exec (.updateB0 data) s = .next (done (absorb s (byte 0))) ∧
    exec (.updateB0B1 data) s = .next (done (absorb (absorb s (byte 0)) (byte 1))) ∧
    exec (.updateB0B1B2 data) s = .next (done (absorb (absorb (absorb s (byte 0)) (byte 1)) (byte 2))) ∧
    exec (.updateB0B1B2B3 data) s =
      .next (done (absorb (absorb (absorb (absorb s (byte 0)) (byte 1)) (byte 2)) (byte 3)))

/-- R84: ABSORB stores the byte at FILL, counts it, and compresses exactly when the block is full. It is said of the legal
fill-counts and of a memory in its canonical form (StepKeepsLegalStates); UPDATE is the sequence of these steps. -/
def Obligations.AbsorbStoresCountsAndCompresses : Prop :=
  ∀ (s : State) (b : Byte), s.fill.toNat < s.alg.blockSize → s.buf.wf →
    (absorb s b).len.toNat = (s.len.toNat + 1) % 2 ^ 64 ∧
    (∀ a : BitVec 7, (absorb s b).buf.read a = if a = s.fill then b else s.buf.read a) ∧
    (absorb s b).fill.toNat = (if s.fill.toNat + 1 = s.alg.blockSize then 0 else s.fill.toNat + 1) ∧
    (absorb s b).h =
      (if s.fill.toNat + 1 = s.alg.blockSize
       then compressHash s.alg s.h (s.buf.readBytes 0 s.fill.toNat ++ [b]) else s.h)

/-- R34, the UPDATE column: an UPDATE that completes leaves ALG, ERR_STICKY, the words of H the algorithm does not use, and
every byte of BUF but those its bytes are stored at. H changes only when the payload fills the block. -/
def Obligations.UpdateFrame : Prop :=
  ∀ (i : Instr) (bytes : List Byte) (s t : State), updatePayload i = some bytes → s.phase.accepting = true →
    exec i s = .next t →
    t.alg = s.alg ∧ t.errSticky = s.errSticky ∧ t.padLimit128 = s.padLimit128 ∧ t.host = s.host ∧ t.resets = s.resets ∧
    (∀ j : Fin 8, s.alg.stateWords ≤ j.val → t.h[j] = s.h[j]) ∧
    (s.fill.toNat + bytes.length < s.alg.blockSize → t.h = s.h) ∧
    (∀ a : BitVec 7, a ∉ absorbAddresses s bytes → t.buf.read a = s.buf.read a)

/-- 20_memory.md R41: the bytes of a payload are stored at FILL, FILL + 1, ..., from index 0 again in a new block. -/
def Obligations.PayloadAddressesWrapAtTheBlock : Prop :=
  ∀ (s : State) (bytes : List Byte), s.fill.toNat < s.alg.blockSize →
    (absorbAddresses s bytes).map BitVec.toNat =
      (List.range bytes.length).map (fun k => (s.fill.toNat + k) % s.alg.blockSize)

/-- R83, R84 and R41 together: where a message has been absorbed so far, an UPDATE makes it the message followed by the payload. -/
def Obligations.UpdateExtendsTheMessage : Prop :=
  ∀ (i : Instr) (bytes msg : List Byte) (s : State), updatePayload i = some bytes → s.buf.wf → Absorbed s msg →
    ∃ t, exec i s = .next t ∧ t.phase = .accumulating ∧ Absorbed t (msg ++ bytes)

/-- R85: two sequences of UPDATE commands with the same bytes reach the same H, BUF, FILL and LEN. -/
def Obligations.UpdateSplittingDoesNotMatter : Prop :=
  ∀ (us vs : List Instr) (bytes : List Byte) (s t u : State), s.phase.accepting = true →
    payloads us = some bytes → payloads vs = some bytes →
    Host.Core.run Sys2Proof.core us.length { s with host := issuing us } = .next t →
    Host.Core.run Sys2Proof.core vs.length { s with host := issuing vs } = .next u →
    t.h = u.h ∧ t.buf = u.buf ∧ t.fill = u.fill ∧ t.len = u.len

/-! ## FINALIZE -/

/-- R86 with R92 to R97: FINALIZE in phase 1 or 2, with the fill-count n after the 0x80 byte. Up to n = limit one block is
compressed, beyond it two; the last one ends in the length field. It is said of the legal fill-counts and of a memory in its
canonical form (StepKeepsLegalStates). With PAD_LIMIT_128 = 120 and FILL 112 to 119 the last block keeps message bytes and the
byte 0x80 at 112 to 119, against a remark of R95 and R242: that is the model's reading (DEDUCED, notes/assumptions/13.md). -/
def Obligations.FinalizePadsAndCompresses : Prop :=
  ∀ s : State, s.phase = .fresh ∨ s.phase = .accumulating → s.fill.toNat < s.alg.blockSize → s.buf.wf →
    let bs := s.alg.blockSize
    let n := s.fill.toNat + 1
    let limit := if bs = 64 then 56 else s.padLimit128.value
    let marked := s.buf.readBytes 0 s.fill.toNat ++ [0x80]
    let extra := marked ++ List.replicate (bs - n) 0
    let last := if n ≤ limit then marked ++ List.replicate (bs - 8 - n) 0 else List.replicate (bs - 8) 0
    let final := last ++ lengthField s.alg s.len
    ∃ t, exec .finalize s = .next t ∧
      t.phase = .finalized ∧ t.fill = 0 ∧ t.lastErr = .ok ∧ t.responses = s.responses ++ [⟨.ok, 0⟩] ∧
      t.buf.readBytes 0 bs = final ∧
      t.h = compressHash s.alg (if n ≤ limit then s.h else compressHash s.alg s.h extra) final

/-- R34, the FINALIZE column: FINALIZE leaves ALG, LEN and ERR_STICKY, the words of H the algorithm does not use, and every
byte of BUF outside the block; below FILL too when there is no extra block (R92 to R96). With PAD_LIMIT_128 = 120 and FILL
113 to 119 the last clause is the model's reading (DEDUCED, notes/assumptions/13.md), against a remark of R95 and R242. -/
def Obligations.FinalizeFrame : Prop :=
  ∀ s t : State, s.phase.accepting = true → exec .finalize s = .next t →
    t.alg = s.alg ∧ t.len = s.len ∧ t.errSticky = s.errSticky ∧ t.padLimit128 = s.padLimit128 ∧ t.host = s.host ∧
    t.resets = s.resets ∧
    (∀ j : Fin 8, s.alg.stateWords ≤ j.val → t.h[j] = s.h[j]) ∧
    (∀ a : BitVec 7, a ≠ s.fill → s.alg.blockSize ≤ a.toNat → t.buf.read a = s.buf.read a) ∧
    (s.fill.toNat + 1 ≤ padLimit s → ∀ a : BitVec 7, a.toNat < s.fill.toNat → t.buf.read a = s.buf.read a)

/-- R98: FINALIZE turns the message absorbed so far into its finished hash. -/
def Obligations.FinalizeFinishesTheMessage : Prop :=
  ∀ (s : State) (msg : List Byte), s.buf.wf → Absorbed s msg → ∃ t, exec .finalize s = .next t ∧ Finished t msg

/-- R43, R96: the length field is the bit count modulo 2^64, little-endian for MD4/MD5 and big-endian otherwise. -/
def Obligations.LengthFieldIsTheBitCount : Prop :=
  ∀ (alg : Alg) (len : Word64) (k : Nat), k < 8 →
    (lengthField alg len).length = 8 ∧
    ((lengthField alg len).getD k 0).toNat =
      fieldAt (len.toNat * 8 % 2 ^ 64) (8 * (if alg = .md4 ∨ alg = .md5 then k else 7 - k)) 8

/-- R47: the length field as block words, for each of the five 32-bit algorithms. -/
def Obligations.LengthFieldAsBlockWords : Prop :=
  ∀ (alg : Alg) (len : Word64) (front : List Byte), alg.wordBits = 32 → front.length = 56 →
    let bits := len.toNat * 8 % 2 ^ 64
    let block := front ++ lengthField alg len
    (alg = .md4 ∨ alg = .md5 →
      ((unpackLE32 block).getD 14 0).toNat = bits % 2 ^ 32 ∧ ((unpackLE32 block).getD 15 0).toNat = bits / 2 ^ 32) ∧
    (alg = .sha1 ∨ alg = .sha224 ∨ alg = .sha256 →
      ((unpackBE32 block).getD 14 0).toNat = bits / 2 ^ 32 ∧ ((unpackBE32 block).getD 15 0).toNat = bits % 2 ^ 32)

/-- R99 and R102: the padded message is whole blocks, `floor(L / bs)` and one more, or two more when `(L mod bs) + 1` exceeds
the limit. -/
def Obligations.PaddedMessageIsWholeBlocks : Prop :=
  ∀ (p : PadLimit128) (alg : Alg) (msg : List Byte),
    (paddedMessage p alg msg).length =
      alg.blockSize * (msg.length / alg.blockSize +
        (if msg.length % alg.blockSize + 1 ≤ (if alg.blockSize = 64 then 56 else p.value) then 1 else 2))

/-! ## READ_DIGEST and READ_STATUS -/

/-- R88: in phase 3 and below N, READ_DIGEST answers byte idx of the digest and writes LAST_ERR only. The byte is computed
from the state word it lies in (R31). -/
def Obligations.ReadDigestAnswersTheDigestByte : Prop :=
  ∀ (s : State) (idx : BitVec 8) (word : Word64), s.phase = .finalized → idx.toNat < s.alg.digestBytes →
    s.h.toList[idx.toNat / (s.alg.wordBits / 8)]? = some word →
    exec (.rdigIdx idx) s = .next { s with
      lastErr := .ok,
      responses := s.responses ++ [⟨.ok, BitVec.ofNat 32 (digestByteOfWord s.alg word.toNat idx.toNat)⟩] }

/-- R253 with R254: an index that decodes but lies at or above N is an IndexRange error in phase 3. -/
def Obligations.ReadDigestBeyondTheDigestIsIndexRange : Prop :=
  ∀ (s : State) (idx : BitVec 8), idx.toNat < 64 → s.phase = .finalized → s.alg.digestBytes ≤ idx.toNat →
    exec (.rdigIdx idx) s = .next { s with
      lastErr := .indexRange, errSticky := true, responses := s.responses ++ [⟨.indexRange, 0⟩] }

/-- R89: the digest has exactly N bytes, N by the algorithm. -/
def Obligations.DigestHasItsFixedLength : Prop :=
  ∀ (alg : Alg) (h : HashFile),
    (digestOf alg h).length =
      (match alg with
       | .md4 => 16 | .md5 => 16 | .sha1 => 20 | .sha224 => 28 | .sha256 => 32 | .sha384 => 48 | .sha512 => 64)

/-- R28 and R90: READ_STATUS completes in every state, answers the status word with each field at its bits, and writes no
register. -/
def Obligations.ReadStatusAnswersTheFields : Prop :=
  ∀ s : State, ∃ w : Word32,
    exec .rstat s = .next { s with responses := s.responses ++ [⟨.ok, w⟩] } ∧
    fieldAt w.toNat 0 2 = s.phase.code.toNat ∧ fieldAt w.toNat 2 2 = 0 ∧
    fieldAt w.toNat 4 3 = s.alg.code.toNat ∧ fieldAt w.toNat 7 1 = 0 ∧
    fieldAt w.toNat 8 2 = s.lastErr.code.toNat ∧ fieldAt w.toNat 10 2 = 0 ∧
    fieldAt w.toNat 12 1 = (if s.errSticky then 1 else 0) ∧ fieldAt w.toNat 13 3 = 0 ∧
    fieldAt w.toNat 16 7 = s.fill.toNat ∧ fieldAt w.toNat 23 1 = 0 ∧
    fieldAt w.toNat 24 7 = (if s.phase = .unconfigured then 0 else s.alg.digestBytes) ∧ fieldAt w.toNat 31 1 = 0

/-- R50: READ_DIGEST writes no register but LAST_ERR (and ERR_STICKY where it fails, R254), READ_STATUS none, and a read
repeated at once answers the same. -/
def Obligations.ReadsAreIdempotent : Prop :=
  ∀ (i : Instr) (s t u : State), (i = .rstat ∨ ∃ idx, i = .rdigIdx idx) → exec i s = .next t → exec i t = .next u →
    ∃ r, t.responses = s.responses ++ [r] ∧ u.responses = s.responses ++ [r, r] ∧
      { t with lastErr := s.lastErr, errSticky := s.errSticky, responses := s.responses } = s ∧
      (i = .rstat → t.lastErr = s.lastErr ∧ t.errSticky = s.errSticky) ∧ (r.code = .ok → t.errSticky = s.errSticky)

/-! ## Errors and the flags -/

/-- R252: which commands raise InvalidState, and where, the state being otherwise unchanged; INIT and READ_STATUS complete. -/
def Obligations.InvalidStateIsRaisedByPhase : Prop :=
  ∀ s : State,
    let raised := Host.Outcome.next (φ := Fault) (ρ := Refusal) { s with
      lastErr := .invalidState, errSticky := true, responses := s.responses ++ [⟨.invalidState, 0⟩] }
    (s.phase = .unconfigured ∨ s.phase = .finalized →
      (∀ i bytes, updatePayload i = some bytes → exec i s = raised) ∧ exec .finalize s = raised) ∧
    (s.phase ≠ .finalized → ∀ idx, exec (.rdigIdx idx) s = raised) ∧
    (∀ i, (i = .rstat ∨ ∃ alg, i = initCommand alg) →
      ∃ t rd, exec i s = .next t ∧ t.responses = s.responses ++ [⟨.ok, rd⟩])

/-- R103: the phase and the response code after every well-formed command, for every phase before it, and after an illegal
word. -/
def Obligations.PhaseTransitionTable : Prop :=
  (∀ (s t : State) (i : Instr), i.WellFormed → exec i s = .next t →
    let answers := fun (c : RespCode) (p : Phase) => (∃ rd, t.responses = s.responses ++ [⟨c, rd⟩]) ∧ t.phase = p
    (∀ alg, i = initCommand alg → answers .ok .fresh) ∧
    (∀ bytes, updatePayload i = some bytes →
      (s.phase = .unconfigured → answers .invalidState .unconfigured) ∧ (s.phase = .fresh → answers .ok .accumulating) ∧
      (s.phase = .accumulating → answers .ok .accumulating) ∧ (s.phase = .finalized → answers .invalidState .finalized)) ∧
    (i = .finalize →
      (s.phase = .unconfigured → answers .invalidState .unconfigured) ∧ (s.phase = .fresh → answers .ok .finalized) ∧
      (s.phase = .accumulating → answers .ok .finalized) ∧ (s.phase = .finalized → answers .invalidState .finalized)) ∧
    (∀ idx, i = .rdigIdx idx →
      (s.phase ≠ .finalized → answers .invalidState s.phase) ∧
      (s.phase = .finalized → answers .ok .finalized ∨ answers .indexRange .finalized)) ∧
    (i = .rstat → answers .ok s.phase)) ∧
  (∀ (s : State) (w : Word64) (rest : List HostMove), s.host = .command w :: rest → (∀ i, decode w ≠ .command i) →
    ∃ t, step s = .next t ∧ t.responses = s.responses ++ [⟨.illegalCommand, 0⟩] ∧ t.phase = s.phase)

/-- R254: a command that ends in an error writes exactly LAST_ERR, ERR_STICKY and its response, whatever the word. -/
def Obligations.ErrorsWriteOnlyTheErrorFields : Prop :=
  ∀ (s t : State) (w : Word64) (rest : List HostMove) (e : RespCode) (rd : Word32), s.host = .command w :: rest →
    step s = .next t → t.responses = s.responses ++ [⟨e, rd⟩] → e ≠ .ok →
    t = { s with host := rest, lastErr := e, errSticky := true, responses := s.responses ++ [⟨e, 0⟩] }

/-- R255: of several errors the first in the order IllegalCommand, InvalidState, IndexRange is reported. -/
def Obligations.ErrorPriority : Prop :=
  ∀ (s t : State) (w : Word64) (rest : List HostMove) (r : Response), s.host = .command w :: rest →
    step s = .next t → t.responses = s.responses ++ [r] →
    ((∀ i, decode w ≠ .command i) → r.code = .illegalCommand) ∧
    (∀ idx, decode w = .command (.rdigIdx idx) → s.phase ≠ .finalized → r.code = .invalidState) ∧
    (∀ idx, decode w = .command (.rdigIdx idx) → s.phase = .finalized → s.alg.digestBytes ≤ idx.toNat →
      r.code = .indexRange)

/-- R71: every command answers exactly one response, and rdata is 0 but for a successful READ_DIGEST, which answers the byte, and
a successful READ_STATUS, which answers STATUS. The codes are numbered as the rule says. -/
def Obligations.EveryCommandRespondsOnce : Prop :=
  (RespCode.ok.code = 0 ∧ RespCode.invalidState.code = 1 ∧ RespCode.illegalCommand.code = 2 ∧ RespCode.indexRange.code = 3) ∧
  ∀ (s : State) (w : Word64) (rest : List HostMove), s.host = .command w :: rest →
    ∃ t r, step s = .next t ∧ t.responses = s.responses ++ [r] ∧
      (∀ idx, decode w = .command (.rdigIdx idx) → r.code = .ok → r.rdata.toNat = (digestByte s.alg s.h idx.toNat).toNat) ∧
      (decode w = .command .rstat → r = ⟨.ok, statusWord s⟩) ∧
      (r.rdata ≠ 0 → r.code = .ok ∧ (decode w = .command .rstat ∨ ∃ idx, decode w = .command (.rdigIdx idx)))

/-- R26, R35: every command but a well-formed READ_STATUS leaves its response code in LAST_ERR; READ_STATUS leaves LAST_ERR alone. -/
def Obligations.LastErrHoldsTheLastCode : Prop :=
  State.reset.lastErr = .ok ∧
  ∀ (s t : State) (w : Word64) (rest : List HostMove), s.host = .command w :: rest → step s = .next t →
    (decode w = .command .rstat → t.lastErr = s.lastErr) ∧
    (decode w ≠ .command .rstat → ∃ r, t.responses = s.responses ++ [r] ∧ t.lastErr = r.code)

/-- R27: an error sets ERR_STICKY, nothing else does, and only INIT and reset clear it. -/
def Obligations.ErrStickyIsSetByErrorsAndClearedByInit : Prop :=
  State.reset.errSticky = false ∧
  ∀ (s t : State) (m : HostMove) (rest : List HostMove), s.host = m :: rest → step s = .next t →
    let clears := m = .reset ∨ ∃ w alg, m = .command w ∧ decode w = .command (initCommand alg)
    let failed := ∃ e rd, e ≠ RespCode.ok ∧ t.responses = s.responses ++ [⟨e, rd⟩]
    (failed → t.errSticky = true) ∧ (clears → t.errSticky = false) ∧
    (¬ failed → ¬ clears → t.errSticky = s.errSticky)

/-- R21: only a successful INIT and reset write ALG; and nothing writes the open parameter of 00_scope.md R9, whose place in the
state is the model's (notes/assumptions/3.md). -/
def Obligations.OnlyInitAndResetWriteAlg : Prop :=
  ∀ (s t : State) (m : HostMove) (rest : List HostMove), s.host = m :: rest → step s = .next t →
    t.padLimit128 = s.padLimit128 ∧
    (∀ w alg, m = .command w → decode w = .command (initCommand alg) → t.alg = alg) ∧
    (m ≠ .reset → (∀ w alg, m = .command w → decode w ≠ .command (initCommand alg)) → t.alg = s.alg)

/-- R23: INIT and reset clear LEN, a successful UPDATE adds its byte count modulo 2^64, nothing else writes it. -/
def Obligations.LenCountsTheAbsorbedBytes : Prop :=
  State.reset.len = 0 ∧
  ∀ (i : Instr) (s t : State), exec i s = .next t →
    (∀ alg, i = initCommand alg → t.len = 0) ∧
    (∀ bytes, updatePayload i = some bytes → s.phase.accepting = true →
      t.len.toNat = (s.len.toNat + bytes.length) % 2 ^ 64) ∧
    ((∀ alg, i ≠ initCommand alg) → (updatePayload i = none ∨ s.phase.accepting = false) → t.len = s.len)

/-- R33.5 and R31: in Finalized, only INIT and reset change H, so the digest stays. -/
def Obligations.DigestIsImmutableWhileFinalized : Prop :=
  ∀ s t : State, s.phase = .finalized → step s = .next t → t.phase = .finalized →
    t.h = s.h ∧ t.alg = s.alg ∧ digestOf t.alg t.h = digestOf s.alg s.h

/-! ## Invariants of every step -/

/-- R33.1 to R33.3, with the canonical form of the memory: every step keeps a legal state legal. The canonical form is the
model's (notes/assumptions/6.md), and so is that R33.3 is claimed for PHASE ≠ 0 only (notes/assumptions/7.md). -/
def Obligations.StepKeepsLegalStates : Prop :=
  ∀ s t : State, Legal s → step s = .next t → Legal t

/-- R33 at reset, and that the reset state stands for no message (R20). H and BUF at reset are the model's
(notes/assumptions/1.md and 6.md). -/
def Obligations.ResetStateIsLegal : Prop :=
  Legal State.reset ∧ StandsForMessage State.reset

/-- R41, R99 and R98: in every state that stands for a message, each step gives a state that stands for a message: LEN, FILL,
BUF and H are always those of some byte sequence, absorbed or finished. -/
def Obligations.StepKeepsStandingForAMessage : Prop :=
  ∀ s t : State, s.buf.wf → StandsForMessage s → step s = .next t → t.buf.wf ∧ StandsForMessage t

/-- R33.4, R44 and R87, with 93_implementation_defined.md U5 to U7: what the spec leaves unspecified cannot be observed. Two
legal states that differ only there step to states that differ only there, with the same responses: none depends on the values
of notes/assumptions/1.md, 2.md and 6.md. -/
def Obligations.UnspecifiedValuesAreNotObservable : Prop :=
  ∀ s t s1 : State, Legal s → Legal t → Alike s t → step s = .next s1 →
    ∃ t1, step t = .next t1 ∧ Alike s1 t1

/-! ## The hash of a message -/

/-- R99 and R104: INIT, UPDATE commands in any split, and FINALIZE, in any state, leave the finished hash of the message: the
cores' compression of the padded message's blocks from the initial vector. -/
def Obligations.EngineHashesTheMessage : Prop :=
  ∀ (alg : Alg) (us : List Instr) (msg : List Byte) (s : State) (rest : List HostMove), payloads us = some msg →
    s.buf.wf → s.host = issuing (initCommand alg :: us ++ [.finalize]) ++ rest →
    ∃ t, Host.Core.run Sys2Proof.core (us.length + 2) s = .next t ∧ t.alg = alg ∧ t.host = rest ∧
      t.padLimit128 = s.padLimit128 ∧ Finished t msg ∧ t.responses = s.responses ++ List.replicate (us.length + 2) ⟨.ok, 0⟩

/-- R104: the commands of the pseudo-instruction `sum` answer the digest of the message, byte by byte. -/
def Obligations.SumAnswersTheDigest : Prop :=
  ∀ (alg : Alg) (msg : List Byte) (s : State) (rest : List HostMove),
    s.buf.wf → s.host = issuing (sumCommands alg msg) ++ rest →
    ∃ t, Host.Core.run Sys2Proof.core (sumCommands alg msg).length s = .next t ∧ t.host = rest ∧
      t.responses = s.responses ++ List.replicate ((absorbCommands msg).length + 2) ⟨.ok, 0⟩ ++
        (messageDigest s.padLimit128 alg msg).map (fun b => ⟨.ok, b.setWidth 32⟩)

/-- R73: `absorb` expands to UPDATE commands that carry the bytes in order: one when there is none, else ⌈L/4⌉. -/
def Obligations.AbsorbExpandsToTheMessage : Prop :=
  ∀ msg : List Byte,
    payloads (absorbCommands msg) = some msg ∧
    (absorbCommands msg).length = (if msg.length = 0 then 1 else (msg.length + 3) / 4)

/-! ## Memory -/

/-- R12, R40: a byte written to BUF reads back, and every other byte is unchanged, for every memory. -/
def Obligations.BufferReadAfterWrite : Prop :=
  ∀ (m : Memory) (a b : BitVec 7) (v : Byte), m.wf →
    (m.write a v).read a = v ∧ (a ≠ b → (m.write a v).read b = m.read b)

/-- The canonical form, which is the model's (notes/assumptions/6.md): every memory operation keeps it, and two memories in that
form that read the same are equal. -/
def Obligations.BufferKeepsItsCanonicalForm : Prop :=
  (∀ (m : Memory) (a : BitVec 7) (v : Byte), m.wf → (m.write a v).wf) ∧
  (∀ (m : Memory) (j : Nat) (bytes : List Byte), m.wf → (m.writeBytes j bytes).wf) ∧
  (∀ (m : Memory) (lo hi : Nat), m.wf → (m.zeroFill lo hi).wf) ∧
  (∀ m n : Memory, m.wf → n.wf → (∀ a : BitVec 7, m.read a = n.read a) → m = n)

/-! ## The rotator/shifter and the mixing functions -/

/-- R120 to R125: the rotations and the logical shift as numbers, for both widths; which amounts the rotator refuses; and ROTR
by n as ROTL by W - n. -/
def Obligations.RotatorAndShifterAsNumbers : Prop :=
  (∀ (w n : Nat), (rotAmount w n = none ↔ n = 0 ∨ w ≤ n)) ∧
  (∀ (w : Nat) (x : BitVec w) (n : RotAmount w), (w = 32 ∨ w = 64) →
    (rotl x n).toNat = x.toNat * 2 ^ n.val % 2 ^ w + x.toNat / 2 ^ (w - n.val) ∧
    (rotr x n).toNat = x.toNat / 2 ^ n.val + x.toNat * 2 ^ (w - n.val) % 2 ^ w ∧
    (∀ m : RotAmount w, m.val = w - n.val → rotr x n = rotl x m) ∧
    (shr x n).toNat = x.toNat / 2 ^ n.val)

/-- R126 to R129: each packing is the sum the rule gives, and each unpacking is its inverse. -/
def Obligations.PackingAndUnpackingAreInverse : Prop :=
  (∀ s0 s1 s2 s3 : Byte,
    (le32 s0 s1 s2 s3).toNat = s0.toNat + s1.toNat * 2 ^ 8 + s2.toNat * 2 ^ 16 + s3.toNat * 2 ^ 24 ∧
    unLE32 (le32 s0 s1 s2 s3) = [s0, s1, s2, s3] ∧
    (be32 s0 s1 s2 s3).toNat = s0.toNat * 2 ^ 24 + s1.toNat * 2 ^ 16 + s2.toNat * 2 ^ 8 + s3.toNat ∧
    unBE32 (be32 s0 s1 s2 s3) = [s0, s1, s2, s3]) ∧
  (∀ s0 s1 s2 s3 s4 s5 s6 s7 : Byte,
    (be64 s0 s1 s2 s3 s4 s5 s6 s7).toNat =
      s0.toNat * 2 ^ 56 + s1.toNat * 2 ^ 48 + s2.toNat * 2 ^ 40 + s3.toNat * 2 ^ 32 +
      s4.toNat * 2 ^ 24 + s5.toNat * 2 ^ 16 + s6.toNat * 2 ^ 8 + s7.toNat ∧
    unBE64 (be64 s0 s1 s2 s3 s4 s5 s6 s7) = [s0, s1, s2, s3, s4, s5, s6, s7] ∧
    (le64 s0 s1 s2 s3 s4 s5 s6 s7).toNat =
      s0.toNat + s1.toNat * 2 ^ 8 + s2.toNat * 2 ^ 16 + s3.toNat * 2 ^ 24 +
      s4.toNat * 2 ^ 32 + s5.toNat * 2 ^ 40 + s6.toNat * 2 ^ 48 + s7.toNat * 2 ^ 56 ∧
    unLE64 (le64 s0 s1 s2 s3 s4 s5 s6 s7) = [s0, s1, s2, s3, s4, s5, s6, s7])

/-- R131 to R133, and the MD4 and MD5 functions R151 to R153 and R171 to R174, bit by bit. -/
def Obligations.MixingFunctionsBitByBit : Prop :=
  (∀ (w : Nat) (x y z : BitVec w) (i : Nat), i < w →
    (ch x y z).getLsbD i = (if x.getLsbD i then y.getLsbD i else z.getLsbD i) ∧
    (maj x y z).getLsbD i = decide (2 ≤ (x.getLsbD i).toNat + (y.getLsbD i).toNat + (z.getLsbD i).toNat)) ∧
  (∀ (x y z : Word32) (i : Nat), i < 32 →
    (parity x y z).getLsbD i = decide (((x.getLsbD i).toNat + (y.getLsbD i).toNat + (z.getLsbD i).toNat) % 2 = 1) ∧
    (md4F x y z).getLsbD i = (if x.getLsbD i then y.getLsbD i else z.getLsbD i) ∧
    (md4G x y z).getLsbD i = decide (2 ≤ (x.getLsbD i).toNat + (y.getLsbD i).toNat + (z.getLsbD i).toNat) ∧
    (md4H x y z).getLsbD i = decide (((x.getLsbD i).toNat + (y.getLsbD i).toNat + (z.getLsbD i).toNat) % 2 = 1) ∧
    (md5F x y z).getLsbD i = (if x.getLsbD i then y.getLsbD i else z.getLsbD i) ∧
    (md5G x y z).getLsbD i = (if z.getLsbD i then x.getLsbD i else y.getLsbD i) ∧
    (md5H x y z).getLsbD i = decide (((x.getLsbD i).toNat + (y.getLsbD i).toNat + (z.getLsbD i).toNat) % 2 = 1) ∧
    (md5I x y z).getLsbD i = (if x.getLsbD i ∨ z.getLsbD i = false then !y.getLsbD i else y.getLsbD i))

/-- R134 to R141: the Σ and σ functions bit by bit, with their amounts. -/
def Obligations.SigmaFunctionsBitByBit : Prop :=
  (∀ (x : Word32) (i : Nat), i < 32 →
    let bit := fun k => x.getLsbD ((i + k) % 32)
    let shifted := fun k => x.getLsbD (i + k)
    (bsig0_32 x).getLsbD i = (bit 2 ^^ bit 13 ^^ bit 22) ∧
    (bsig1_32 x).getLsbD i = (bit 6 ^^ bit 11 ^^ bit 25) ∧
    (ssig0_32 x).getLsbD i = (bit 7 ^^ bit 18 ^^ shifted 3) ∧
    (ssig1_32 x).getLsbD i = (bit 17 ^^ bit 19 ^^ shifted 10)) ∧
  (∀ (x : Word64) (i : Nat), i < 64 →
    let bit := fun k => x.getLsbD ((i + k) % 64)
    let shifted := fun k => x.getLsbD (i + k)
    (bsig0_64 x).getLsbD i = (bit 28 ^^ bit 34 ^^ bit 39) ∧
    (bsig1_64 x).getLsbD i = (bit 14 ^^ bit 18 ^^ bit 41) ∧
    (ssig0_64 x).getLsbD i = (bit 1 ^^ bit 8 ^^ shifted 7) ∧
    (ssig1_64 x).getLsbD i = (bit 19 ^^ bit 61 ^^ shifted 6))

/-! ## The compression cores -/

/-- R42: how each core reads its block as 16 words. -/
def Obligations.BlockWordsAreReadInTheByteOrder : Prop :=
  ∀ (blk : List Byte) (j : Nat), j < 16 →
    let byte := fun k => blk.getD k 0
    (blk.length = 64 →
      (unpackLE32 blk).length = 16 ∧
      (unpackLE32 blk).getD j 0 = le32 (byte (4 * j)) (byte (4 * j + 1)) (byte (4 * j + 2)) (byte (4 * j + 3)) ∧
      (unpackBE32 blk).length = 16 ∧
      (unpackBE32 blk).getD j 0 = be32 (byte (4 * j)) (byte (4 * j + 1)) (byte (4 * j + 2)) (byte (4 * j + 3))) ∧
    (blk.length = 128 →
      (unpackBE64 blk).length = 16 ∧
      (unpackBE64 blk).getD j 0 =
        be64 (byte (8 * j)) (byte (8 * j + 1)) (byte (8 * j + 2)) (byte (8 * j + 3))
          (byte (8 * j + 4)) (byte (8 * j + 5)) (byte (8 * j + 6)) (byte (8 * j + 7)))

/-- R191: the SHA-1 schedule, word by word. -/
def Obligations.Sha1ScheduleRecurrence : Prop :=
  ∀ (blk : List Byte), blk.length = 64 →
    let W := fun t => (sha1Schedule blk).getD t 0
    (sha1Schedule blk).length = 80 ∧
    (∀ t, t < 16 →
      W t = be32 (blk.getD (4 * t) 0) (blk.getD (4 * t + 1) 0) (blk.getD (4 * t + 2) 0) (blk.getD (4 * t + 3) 0)) ∧
    (∀ t, 16 ≤ t → t < 80 → W t = rotl (W (t - 3) ^^^ W (t - 8) ^^^ W (t - 14) ^^^ W (t - 16)) ⟨1, by decide⟩)

/-- R212 and R232: the SHA-2 schedules, word by word. -/
def Obligations.Sha2ScheduleRecurrence : Prop :=
  (∀ (blk : List Byte), blk.length = 64 →
    let W := fun t => (sha256Schedule blk).getD t 0
    (sha256Schedule blk).length = 64 ∧
    (∀ t, t < 16 →
      W t = be32 (blk.getD (4 * t) 0) (blk.getD (4 * t + 1) 0) (blk.getD (4 * t + 2) 0) (blk.getD (4 * t + 3) 0)) ∧
    (∀ t, 16 ≤ t → t < 64 → W t = ssig1_32 (W (t - 2)) + W (t - 7) + ssig0_32 (W (t - 15)) + W (t - 16))) ∧
  (∀ (blk : List Byte), blk.length = 128 →
    let W := fun t => (sha512Schedule blk).getD t 0
    (sha512Schedule blk).length = 80 ∧
    (∀ t, t < 16 →
      W t = be64 (blk.getD (8 * t) 0) (blk.getD (8 * t + 1) 0) (blk.getD (8 * t + 2) 0) (blk.getD (8 * t + 3) 0)
        (blk.getD (8 * t + 4) 0) (blk.getD (8 * t + 5) 0) (blk.getD (8 * t + 6) 0) (blk.getD (8 * t + 7) 0)) ∧
    (∀ t, 16 ≤ t → t < 80 → W t = ssig1_64 (W (t - 2)) + W (t - 7) + ssig0_64 (W (t - 15)) + W (t - 16)))

/-- R100 with R22: a compression writes the algorithm's words only; those of a 32-bit algorithm have their upper halves 0; and it
depends on those words and the block alone. It holds of a list of any length; of one that is not bs bytes it speaks of the
model's own choice (notes/assumptions/14.md). -/
def Obligations.CompressionReadsAndWritesItsWords : Prop :=
  ∀ (alg : Alg) (h g : HashFile) (blk : List Byte),
    (∀ j : Fin 8, alg.stateWords ≤ j.val → (compressHash alg h blk)[j] = h[j]) ∧
    (∀ j : Fin 8, j.val < alg.stateWords → alg.wordBits = 32 → (compressHash alg h blk)[j].toNat < 2 ^ 32) ∧
    (visibleHash alg h = visibleHash alg g → visibleHash alg (compressHash alg h blk) = visibleHash alg (compressHash alg g blk))

/-- The examples of R160, R180, R200, R220 and R240: the hash state after the padded empty block. -/
def Obligations.EmptyMessageCompressions : Prop :=
  let block := fun bs => (0x80 : Byte) :: List.replicate (bs - 1) 0
  md4Compress md4IV (block 64) = ⟨0xe0cfd631, 0x31e96ad1, 0xd7593cb7, 0xc089c0e0⟩ ∧
  md5Compress md5IV (block 64) = ⟨0xd98c1dd4, 0x04b2008f, 0x980980e9, 0x7e42f8ec⟩ ∧
  sha1Compress sha1IV (block 64) = ⟨0xda39a3ee, 0x5e6b4b0d, 0x3255bfef, 0x95601890, 0xafd80709⟩ ∧
  sha256Compress sha256IV (block 64) =
    ⟨0xe3b0c442, 0x98fc1c14, 0x9afbf4c8, 0x996fb924, 0x27ae41e4, 0x649b934c, 0xa495991b, 0x7852b855⟩ ∧
  (sha512Compress sha512IV (block 128)).a = 0xcf83e1357eefb8bd ∧
  (sha512Compress sha512IV (block 128)).h = 0xa538327af927da3e

/-- R154 and R175: the message orders and rotation amounts of MD4 and MD5 as formulas of the pass and of j; and R233, that the
upper halves of K512 begin with K256. -/
def Obligations.RoundTablesFollowTheirFormulas : Prop :=
  (∀ j, j < 16 →
    (md4Order 0).getD j 0 = j ∧ (md4Order 1).getD j 0 = 4 * (j % 4) + j / 4 ∧
    (md4Order 2).getD j 0 = 8 * (j % 2) + 4 * (j / 2 % 2) + 2 * (j / 4 % 2) + j / 8 ∧
    md5Order 0 j = j ∧ md5Order 1 j = (1 + 5 * j) % 16 ∧ md5Order 2 j = (5 + 3 * j) % 16 ∧ md5Order 3 j = 7 * j % 16) ∧
  (∀ r, r < 3 → (List.range 4).map (fun q => (md4Amount r q).val) = [[3, 7, 11, 19], [3, 5, 9, 13], [3, 9, 11, 15]].getD r []) ∧
  (∀ r, r < 4 → (List.range 4).map (fun q => (md5Amount r q).val) =
    [[7, 12, 17, 22], [5, 9, 14, 20], [4, 11, 16, 23], [6, 10, 15, 21]].getD r []) ∧
  (sha512K.take 64).map (fun k => k.extractLsb' 32 32) = sha256K ∧ sha512K.length = 80

/-! ## Assembly -/

/-- R72 and R73 on lines of every form they list. What they leave open of the text is the model's (notes/assumptions/11.md). -/
def Obligations.AssemblerLines : Prop :=
  assemble ["init md4".toList, "init md5".toList, "init sha1".toList, "init sha224".toList, "init sha256".toList,
      "init sha384".toList, "init sha512".toList] =
    some [0x1000000000000000, 0x1001000000000000, 0x1002000000000000, 0x1003000000000000, 0x1004000000000000,
      0x1005000000000000, 0x1006000000000000] ∧
  assemble ["update".toList, "update 255".toList, "update 0x61, 98".toList, "update 0x61, 98, 0x63 ; abc".toList,
      "update 1, 2, 3, 4".toList] =
    some [0x2000000000000000, 0x20010000000000ff, 0x2002000000006261, 0x2003000000636261, 0x2004000004030201] ∧
  assemble ["finalize".toList, "rdig 0".toList, "rdig 63".toList, "rstat".toList, "; no command".toList] =
    some [0x3000000000000000, 0x4000000000000000, 0x403f000000000000, 0x5000000000000000] ∧
  assemble ["absorb \"abcde\"".toList, "absorb 0x61, 0x62".toList, "absorb".toList] =
    some [0x2004000064636261, 0x2001000000000065, 0x2002000000006261, 0x2000000000000000] ∧
  (let reads := fun n => (List.range n).map (fun k => BitVec.ofNat 64 (0x4000000000000000 + k * 2 ^ 48))
   assemble ["init sha224".toList, "digest".toList] = some (0x1003000000000000 :: reads 28) ∧
   assemble ["init sha224".toList, "sum md5, \"a\"".toList, "digest".toList] =
     some ([0x1003000000000000, 0x1001000000000000, 0x2001000000000061, 0x3000000000000000] ++ reads 16 ++ reads 16) ∧
   ∀ alg : Alg,
     (digestCommands alg).map encode = reads alg.digestBytes ∧
     (sumCommands alg []).map encode =
       [0x1000000000000000 ||| alg.code.setWidth 64 <<< 48, 0x2000000000000000, 0x3000000000000000] ++
         reads alg.digestBytes) ∧
  assemble ["digest".toList] = none ∧ assemble ["rdig 64".toList] = none ∧ assemble ["init sha3".toList] = none ∧
  assemble ["update 1, 2, 3, 4, 5".toList] = none ∧ assemble ["update 256".toList] = none

end
end

