-- ==== Sys2Proof/Laws/Decode.lean ====
section
/-! SUPPORT. The fields of a command word, and the decoder on a word made of its fields. -/

namespace Sys2Proof

/-- A bit of a command word is a bit of the field it lies in (R61). -/
theorem commandWord_getLsbD (o : BitVec 4) (a : BitVec 8) (d : Word32) (i : Nat) (hi : i < 64) :
    (commandWord o a d).getLsbD i =
      if i < 32 then d.getLsbD i else if i < 48 then false else if i < 56 then a.getLsbD (i - 48)
      else if i < 60 then false else o.getLsbD (i - 60) := by
  unfold commandWord
  simp only [BitVec.getLsbD_or, BitVec.getLsbD_shiftLeft, BitVec.getLsbD_setWidth, hi, decide_true, Bool.true_and]
  by_cases h1 : i < 32
  · have h2 : i < 60 := by omega
    have h3 : i < 48 := by omega
    simp [h1, h2, h3]
  · have hd : d.getLsbD i = false := BitVec.getLsbD_of_ge _ _ (by omega)
    by_cases h2 : i < 48
    · have h3 : i < 60 := by omega
      simp [h1, h2, h3, hd]
    · by_cases h3 : i < 60
      · by_cases h4 : i < 56
        · have h5 : i - 48 < 64 := by omega
          simp [h1, h2, h3, h4, h5, hd]
        · have ha : a.getLsbD (i - 48) = false := BitVec.getLsbD_of_ge _ _ (by omega)
          simp [h1, h2, h3, h4, hd, ha]
      · have ha : a.getLsbD (i - 48) = false := BitVec.getLsbD_of_ge _ _ (by omega)
        have h4 : ¬ i < 56 := by omega
        have h5 : i - 60 < 64 := by omega
        simp [h1, h2, h3, h4, h5, hd, ha]

@[simp] theorem opcField_commandWord (o : BitVec 4) (a : BitVec 8) (d : Word32) : opcField (commandWord o a d) = o := by
  refine BitVec.eq_of_getLsbD_eq fun i hi => ?_
  have e : 60 + i - 60 = i := by omega
  have n1 : ¬ 60 + i < 32 := by omega
  have n2 : ¬ 60 + i < 48 := by omega
  have n3 : ¬ 60 + i < 56 := by omega
  have n4 : ¬ 60 + i < 60 := by omega
  simp only [opcField, BitVec.getLsbD_extractLsb', hi, decide_true, Bool.true_and,
    commandWord_getLsbD o a d (60 + i) (by omega), n1, n2, n3, n4, if_false, e]

@[simp] theorem rsv1Field_commandWord (o : BitVec 4) (a : BitVec 8) (d : Word32) : rsv1Field (commandWord o a d) = 0 := by
  refine BitVec.eq_of_getLsbD_eq fun i hi => ?_
  have n1 : ¬ 56 + i < 32 := by omega
  have n2 : ¬ 56 + i < 48 := by omega
  have n3 : ¬ 56 + i < 56 := by omega
  have n4 : 56 + i < 60 := by omega
  simp only [rsv1Field, BitVec.getLsbD_extractLsb', hi, decide_true, Bool.true_and,
    commandWord_getLsbD o a d (56 + i) (by omega), n1, n2, n3, n4, if_false, if_true]
  simp

@[simp] theorem argField_commandWord (o : BitVec 4) (a : BitVec 8) (d : Word32) : argField (commandWord o a d) = a := by
  refine BitVec.eq_of_getLsbD_eq fun i hi => ?_
  have e : 48 + i - 48 = i := by omega
  have n1 : ¬ 48 + i < 32 := by omega
  have n2 : ¬ 48 + i < 48 := by omega
  have n3 : 48 + i < 56 := by omega
  simp only [argField, BitVec.getLsbD_extractLsb', hi, decide_true, Bool.true_and,
    commandWord_getLsbD o a d (48 + i) (by omega), n1, n2, n3, if_false, if_true, e]

@[simp] theorem rsv2Field_commandWord (o : BitVec 4) (a : BitVec 8) (d : Word32) : rsv2Field (commandWord o a d) = 0 := by
  refine BitVec.eq_of_getLsbD_eq fun i hi => ?_
  have n1 : ¬ 32 + i < 32 := by omega
  have n2 : 32 + i < 48 := by omega
  simp only [rsv2Field, BitVec.getLsbD_extractLsb', hi, decide_true, Bool.true_and,
    commandWord_getLsbD o a d (32 + i) (by omega), n1, n2, if_false, if_true]
  simp

@[simp] theorem dataField_commandWord (o : BitVec 4) (a : BitVec 8) (d : Word32) : dataField (commandWord o a d) = d := by
  refine BitVec.eq_of_getLsbD_eq fun i hi => ?_
  have n1 : 0 + i < 32 := by omega
  simp only [dataField, BitVec.getLsbD_extractLsb', hi, decide_true, Bool.true_and,
    commandWord_getLsbD o a d (0 + i) (by omega), n1, if_true]
  simp
/-- A word whose reserved fields are 0 is made of its other fields. -/
theorem commandWord_fields (w : Word64) (h1 : rsv1Field w = 0) (h2 : rsv2Field w = 0) :
    commandWord (opcField w) (argField w) (dataField w) = w := by
  refine BitVec.eq_of_getLsbD_eq fun i hi => ?_
  rw [commandWord_getLsbD _ _ _ i hi]
  have k1 : ∀ j, j < 4 → w.getLsbD (56 + j) = false := fun j hj => by
    have := congrArg (fun v => v.getLsbD j) h1
    simpa [rsv1Field, hj] using this
  have k2 : ∀ j, j < 16 → w.getLsbD (32 + j) = false := fun j hj => by
    have := congrArg (fun v => v.getLsbD j) h2
    simpa [rsv2Field, hj] using this
  by_cases c1 : i < 32
  · simp [c1, dataField]
  · by_cases c2 : i < 48
    · have := k2 (i - 32) (by omega)
      rw [show 32 + (i - 32) = i by omega] at this
      simp [c1, c2, this]
    · by_cases c3 : i < 56
      · simp [c1, c2, c3, argField, show i - 48 < 8 by omega, show 48 + (i - 48) = i by omega]
      · by_cases c4 : i < 60
        · have := k1 (i - 56) (by omega)
          rw [show 56 + (i - 56) = i by omega] at this
          simp [c1, c2, c3, c4, this]
        · simp [c1, c2, c3, c4, opcField, show i - 60 < 4 by omega, show 60 + (i - 60) = i by omega]

/-- The decoder on a word made of its fields. -/
theorem decode_commandWord (o : BitVec 4) (a : BitVec 8) (d : Word32) : decode (commandWord o a d) =
    match o.toNat with
    | 1 => decodeInit a d
    | 2 => decodeUpdate a d
    | 3 => decodeNoOperand a d .finalize
    | 4 => decodeReadDigest a d
    | 5 => decodeNoOperand a d .rstat
    | _ => .illegal .reservedOpcode := by
  unfold decode
  rw [rsv1Field_commandWord, rsv2Field_commandWord, opcField_commandWord, argField_commandWord, dataField_commandWord]
  simp only [ne_eq, not_true_eq_false, or_self, if_false] <;> rfl

end Sys2Proof
end

