-- ==== Sys2Proof/Laws/Memory.lean ====
section
/-! SUPPORT. The laws of the block buffer: read after write, and the canonical form. -/

namespace Sys2Proof.Machine

theorem lookup_of_all_above (m : Memory) (a : Nat) (h : ∀ c ∈ m, a < c.1) : m.lookup a = Memory.unlisted := by
  induction m with
  | nil => rfl
  | cons c m ih =>
    obtain ⟨k, v⟩ := c
    have hk : a < k := h (k, v) (by simp)
    have hne : k ≠ a := by omega
    simp only [Memory.lookup, hne, if_false]
    exact ih (fun c hc => h c (by simp [hc]))

theorem lookup_cons_same (a : Nat) (b : Byte) (m : Memory) (h : ∀ c ∈ m, a < c.1) :
    (Memory.cons a b m).lookup a = b := by
  unfold Memory.cons
  split
  · rename_i hb
    rw [lookup_of_all_above m a h, hb]
  · simp [Memory.lookup]

theorem lookup_cons_ne (a x : Nat) (b : Byte) (m : Memory) (hne : a ≠ x) :
    (Memory.cons a b m).lookup x = m.lookup x := by
  unfold Memory.cons
  split
  · rfl
  · simp [Memory.lookup, hne]

theorem insert_keys (m : Memory) (a : Nat) (b : Byte) :
    ∀ c ∈ m.insert a b, (c = (a, b) ∧ b ≠ Memory.unlisted) ∨ c ∈ m := by
  induction m with
  | nil =>
    intro c hc
    unfold Memory.insert Memory.cons at hc
    split at hc <;> simp_all
  | cons e m ih =>
    obtain ⟨k, v⟩ := e
    intro c hc
    unfold Memory.insert at hc
    split at hc
    · unfold Memory.cons at hc
      split at hc
      · exact .inr hc
      · simp only [List.mem_cons] at hc ⊢
        rcases hc with rfl | hc
        · exact .inl ⟨rfl, ‹_›⟩
        · exact .inr hc
    · split at hc
      · unfold Memory.cons at hc
        split at hc
        · exact .inr (List.mem_cons_of_mem _ hc)
        · simp only [List.mem_cons] at hc ⊢
          rcases hc with rfl | hc
          · exact .inl ⟨rfl, ‹_›⟩
          · exact .inr (.inr hc)
      · simp only [List.mem_cons] at hc ⊢
        rcases hc with rfl | hc
        · exact .inr (.inl rfl)
        · rcases ih c hc with h | h
          · exact .inl h
          · exact .inr (.inr h)

theorem lookup_insert (m : Memory) (a x : Nat) (b : Byte) (hm : m.Pairwise (fun x y => x.1 < y.1)) :
    (m.insert a b).lookup x = if x = a then b else m.lookup x := by
  induction m with
  | nil =>
    unfold Memory.insert
    split
    · rename_i h
      rw [h]
      exact lookup_cons_same a b [] (by simp)
    · exact lookup_cons_ne a x b [] (by omega)
  | cons e m ih =>
    obtain ⟨k, v⟩ := e
    have hk : ∀ c ∈ m, k < c.1 := (List.pairwise_cons.mp hm).1
    have hm' := (List.pairwise_cons.mp hm).2
    unfold Memory.insert
    by_cases h1 : a < k
    · rw [if_pos h1]
      have hall : ∀ c ∈ ((k, v) :: m : Memory), a < c.1 := by
        intro c hc
        rcases List.mem_cons.mp hc with rfl | hc
        · exact h1
        · exact Nat.lt_trans h1 (hk c hc)
      split
      · rename_i h
        rw [h]
        exact lookup_cons_same a b _ hall
      · exact lookup_cons_ne a x b _ (by omega)
    · rw [if_neg h1]
      by_cases h2 : a = k
      · subst h2
        rw [if_pos rfl]
        split
        · rename_i h
          rw [h]
          exact lookup_cons_same a b m hk
        · rename_i h
          rw [lookup_cons_ne a x b m (by omega)]
          have : a ≠ x := by omega
          simp [Memory.lookup, this]
      · rw [if_neg h2]
        by_cases h3 : k = x
        · subst h3
          have : k ≠ a := by omega
          simp [Memory.lookup, this]
        · simp only [Memory.lookup, h3, if_false]
          exact ih hm'

theorem insert_wf (m : Memory) (a : Nat) (b : Byte) (ha : a < 128) (h : m.wf) : (m.insert a b).wf := by
  obtain ⟨hm, he⟩ := h
  refine ⟨?_, fun c hc => ?_⟩
  · clear he
    induction m with
    | nil =>
      unfold Memory.insert Memory.cons
      split <;> simp
    | cons e m ih =>
      obtain ⟨k, v⟩ := e
      have hk : ∀ c ∈ m, k < c.1 := (List.pairwise_cons.mp hm).1
      have hm' := (List.pairwise_cons.mp hm).2
      unfold Memory.insert
      by_cases h1 : a < k
      · rw [if_pos h1]
        unfold Memory.cons
        split
        · exact hm
        · refine List.pairwise_cons.mpr ⟨fun c hc => ?_, hm⟩
          rcases List.mem_cons.mp hc with rfl | hc
          · exact h1
          · exact Nat.lt_trans h1 (hk c hc)
      · rw [if_neg h1]
        by_cases h2 : a = k
        · subst h2
          rw [if_pos rfl]
          unfold Memory.cons
          split
          · exact hm'
          · exact List.pairwise_cons.mpr ⟨hk, hm'⟩
        · rw [if_neg h2]
          refine List.pairwise_cons.mpr ⟨fun c hc => ?_, ih hm'⟩
          rcases insert_keys m a b c hc with h | h
          · rw [h.1]
            show k < a
            omega
          · exact hk c h
  · rcases insert_keys m a b c hc with h | h
    · rw [h.1]
      exact ⟨ha, h.2⟩
    · exact he c h

/-- A write keeps the canonical form. -/
theorem write_wf (m : Memory) (a : BitVec 7) (b : Byte) (h : m.wf) : (m.write a b).wf :=
  insert_wf m a.toNat b (by have := a.isLt; omega) h

theorem read_write (m : Memory) (a x : BitVec 7) (b : Byte) (h : m.wf) :
    (m.write a b).read x = if x = a then b else m.read x := by
  unfold Memory.read Memory.write
  rw [lookup_insert m a.toNat x.toNat b h.1]
  simp [BitVec.toNat_inj]

/-- MemWrite keeps the canonical form. -/
theorem writeBytes_wf (bytes : List Byte) : ∀ (m : Memory) (j : Nat), m.wf → (m.writeBytes j bytes).wf := by
  induction bytes with
  | nil => exact fun m j h => h
  | cons b bytes ih => exact fun m j h => ih _ _ (write_wf m _ b h)

theorem zeroFill_wf (m : Memory) (lo hi : Nat) (h : m.wf) : (m.zeroFill lo hi).wf :=
  writeBytes_wf _ m lo h

theorem lookup_insert_ne (m : Memory) (a x : Nat) (b : Byte) (hne : x ≠ a) : (m.insert a b).lookup x = m.lookup x := by
  induction m with
  | nil => exact lookup_cons_ne a x b [] (Ne.symm hne)
  | cons e m ih =>
    obtain ⟨k, v⟩ := e
    unfold Memory.insert
    split
    · exact lookup_cons_ne a x b _ (Ne.symm hne)
    · split
      · rename_i h
        subst h
        rw [lookup_cons_ne a x b m (Ne.symm hne)]
        simp [Memory.lookup, Ne.symm hne]
      · simp only [Memory.lookup, ih]

/-- A write leaves every other byte alone, in every memory. -/
theorem read_write_ne (m : Memory) (a x : BitVec 7) (b : Byte) (hne : x ≠ a) : (m.write a b).read x = m.read x :=
  lookup_insert_ne m a.toNat x.toNat b (fun h => hne (BitVec.eq_of_toNat_eq h))

/-- MemWrite leaves every byte outside its range alone, in every memory. -/
theorem read_writeBytes_outside (bytes : List Byte) :
    ∀ (m : Memory) (j : Nat) (x : BitVec 7), j + bytes.length ≤ 128 →
      ¬ (j ≤ x.toNat ∧ x.toNat < j + bytes.length) → (m.writeBytes j bytes).read x = m.read x := by
  induction bytes with
  | nil => exact fun m j x _ _ => rfl
  | cons b bytes ih =>
    intro m j x hj hx
    simp only [List.length_cons] at hj hx
    unfold Memory.writeBytes
    rw [ih _ _ x (by omega) (by omega)]
    refine read_write_ne m _ x b (fun h => hx ?_)
    rw [h, BitVec.toNat_ofNat, Nat.mod_eq_of_lt (by omega)]
    omega

theorem read_zeroFill_outside (m : Memory) (lo hi : Nat) (x : BitVec 7) (hhi : hi ≤ 128) (hlo : lo ≤ 128)
    (hx : ¬ (lo ≤ x.toNat ∧ x.toNat < hi)) : (m.zeroFill lo hi).read x = m.read x := by
  refine read_writeBytes_outside _ m lo x ?_ ?_ <;> simp <;> omega

/-- What MemWrite leaves at an address: the byte written there, or what stood there. -/
theorem read_writeBytes (bytes : List Byte) :
    ∀ (m : Memory) (j : Nat) (x : BitVec 7), m.wf → j + bytes.length ≤ 128 →
      (m.writeBytes j bytes).read x =
        if j ≤ x.toNat ∧ x.toNat < j + bytes.length then bytes.getD (x.toNat - j) 0 else m.read x := by
  induction bytes with
  | nil =>
    intro m j x h hj
    have : ¬ (j ≤ x.toNat ∧ x.toNat < j + 0) := by omega
    simp only [List.length_nil, this, if_false]
    rfl
  | cons b bytes ih =>
    intro m j x h hj
    simp only [List.length_cons] at hj ⊢
    unfold Memory.writeBytes
    rw [ih _ _ x (write_wf m _ b h) (by omega), read_write m _ x b h]
    have hx : x = BitVec.ofNat 7 j ↔ x.toNat = j := by
      rw [← BitVec.toNat_inj, BitVec.toNat_ofNat, Nat.mod_eq_of_lt (by omega)]
    by_cases h1 : x.toNat = j
    · rw [if_neg (by omega), if_pos (hx.mpr h1), if_pos (by omega), h1, Nat.sub_self]
      rfl
    · rw [if_neg (fun e => h1 (hx.mp e))]
      by_cases h2 : j + 1 ≤ x.toNat ∧ x.toNat < j + 1 + bytes.length
      · rw [if_pos h2, if_pos (by omega)]
        have : x.toNat - j = (x.toNat - (j + 1)) + 1 := by omega
        rw [this]
        rfl
      · rw [if_neg h2, if_neg (by omega)]

theorem read_zeroFill (m : Memory) (lo hi : Nat) (x : BitVec 7) (h : m.wf) (hhi : hi ≤ 128) (hlo : lo ≤ 128) :
    (m.zeroFill lo hi).read x = if lo ≤ x.toNat ∧ x.toNat < hi then 0 else m.read x := by
  unfold Memory.zeroFill
  rw [read_writeBytes _ m lo x h (by simp; omega)]
  by_cases h1 : lo ≤ x.toNat ∧ x.toNat < hi
  · rw [if_pos (by simp; omega), if_pos h1, List.getD_eq_getElem?_getD, List.getElem?_replicate]
    split <;> rfl
  · rw [if_neg (by simp; omega), if_neg h1]

@[simp] theorem readBytes_length (m : Memory) (j n : Nat) : (m.readBytes j n).length = n := by
  simp [Memory.readBytes]

/-- MemRead of one byte more. -/
theorem readBytes_succ (m : Memory) (j n : Nat) :
    m.readBytes j (n + 1) = m.readBytes j n ++ [m.read (BitVec.ofNat 7 (j + n))] := by
  simp [Memory.readBytes, List.range_succ]

/-- MemRead depends on the bytes it reads alone. -/
theorem readBytes_congr (m k : Memory) (j n : Nat)
    (h : ∀ i, i < n → m.read (BitVec.ofNat 7 (j + i)) = k.read (BitVec.ofNat 7 (j + i))) :
    m.readBytes j n = k.readBytes j n := by
  unfold Memory.readBytes
  exact List.map_congr_left (fun i hi => h i (List.mem_range.mp hi))

/-- A block after a write at its end: the bytes before it, and the byte. -/
theorem readBytes_write_end (m : Memory) (a : BitVec 7) (b : Byte) (hw : m.wf) :
    (m.write a b).readBytes 0 (a.toNat + 1) = m.readBytes 0 a.toNat ++ [b] := by
  rw [readBytes_succ]
  congr 1
  · refine readBytes_congr _ _ _ _ fun i hi => ?_
    apply read_write_ne
    intro e
    have := congrArg BitVec.toNat e
    rw [BitVec.toNat_ofNat, Nat.mod_eq_of_lt (by omega)] at this
    omega
  · simp [read_write _ _ _ _ hw]

/-- A block after a run of writes at its end: the bytes before them, and the run. -/
theorem readBytes_writeBytes (xs : List Byte) : ∀ (m : Memory) (j : Nat), m.wf → j + xs.length ≤ 128 →
    (m.writeBytes j xs).readBytes 0 (j + xs.length) = m.readBytes 0 j ++ xs := by
  induction xs with
  | nil => intro m j _ _; simp [Memory.writeBytes]
  | cons b xs ih =>
    intro m j hw hj
    simp only [List.length_cons] at hj
    have hb : (BitVec.ofNat 7 j).toNat = j := by rw [BitVec.toNat_ofNat, Nat.mod_eq_of_lt (by omega)]
    have h1 := ih (m.write (BitVec.ofNat 7 j) b) (j + 1) (write_wf _ _ _ hw) (by omega)
    have h2 := readBytes_write_end m (BitVec.ofNat 7 j) b hw
    rw [hb] at h2
    rw [h2] at h1
    show ((m.write (BitVec.ofNat 7 j) b).writeBytes (j + 1) xs).readBytes 0 (j + (xs.length + 1)) = _
    rw [show j + (xs.length + 1) = j + 1 + xs.length by omega, h1]
    simp

/-- A block after a zero fill up to its end. -/
theorem readBytes_zeroFill (m : Memory) (lo hi : Nat) (hw : m.wf) (h1 : lo ≤ hi) (h2 : hi ≤ 128) :
    (m.zeroFill lo hi).readBytes 0 hi = m.readBytes 0 lo ++ List.replicate (hi - lo) 0 := by
  have := readBytes_writeBytes (List.replicate (hi - lo) 0) m lo hw (by simp; omega)
  rw [List.length_replicate, show lo + (hi - lo) = hi by omega] at this
  exact this

end Sys2Proof.Machine
end

