-- ==== Sys2Proof/Laws/State.lean ====
section
/-! SUPPORT. One lemma for each field that a shared operation of the state leaves or sets, so that no proof unfolds a record
update. Each holds by definition. -/

namespace Sys2Proof.Machine

/-! ## respond -/

@[simp] theorem respond_phase (c : RespCode) (d : Word32) (s : State) : (respond c d s).phase = s.phase := rfl
@[simp] theorem respond_alg (c : RespCode) (d : Word32) (s : State) : (respond c d s).alg = s.alg := rfl
@[simp] theorem respond_h (c : RespCode) (d : Word32) (s : State) : (respond c d s).h = s.h := rfl
@[simp] theorem respond_len (c : RespCode) (d : Word32) (s : State) : (respond c d s).len = s.len := rfl
@[simp] theorem respond_buf (c : RespCode) (d : Word32) (s : State) : (respond c d s).buf = s.buf := rfl
@[simp] theorem respond_fill (c : RespCode) (d : Word32) (s : State) : (respond c d s).fill = s.fill := rfl
@[simp] theorem respond_lastErr (c : RespCode) (d : Word32) (s : State) : (respond c d s).lastErr = s.lastErr := rfl
@[simp] theorem respond_errSticky (c : RespCode) (d : Word32) (s : State) : (respond c d s).errSticky = s.errSticky := rfl
@[simp] theorem respond_padLimit128 (c : RespCode) (d : Word32) (s : State) : (respond c d s).padLimit128 = s.padLimit128 := rfl
@[simp] theorem respond_host (c : RespCode) (d : Word32) (s : State) : (respond c d s).host = s.host := rfl
@[simp] theorem respond_responses (c : RespCode) (d : Word32) (s : State) : (respond c d s).responses = s.responses ++ [⟨c, d⟩] := rfl
@[simp] theorem respond_resets (c : RespCode) (d : Word32) (s : State) : (respond c d s).resets = s.resets := rfl

/-! ## noteError -/

@[simp] theorem noteError_phase (e : RespCode) (s : State) : (noteError e s).phase = s.phase := rfl
@[simp] theorem noteError_alg (e : RespCode) (s : State) : (noteError e s).alg = s.alg := rfl
@[simp] theorem noteError_h (e : RespCode) (s : State) : (noteError e s).h = s.h := rfl
@[simp] theorem noteError_len (e : RespCode) (s : State) : (noteError e s).len = s.len := rfl
@[simp] theorem noteError_buf (e : RespCode) (s : State) : (noteError e s).buf = s.buf := rfl
@[simp] theorem noteError_fill (e : RespCode) (s : State) : (noteError e s).fill = s.fill := rfl
@[simp] theorem noteError_lastErr (e : RespCode) (s : State) : (noteError e s).lastErr = e := rfl
@[simp] theorem noteError_errSticky (e : RespCode) (s : State) : (noteError e s).errSticky = true := rfl
@[simp] theorem noteError_padLimit128 (e : RespCode) (s : State) : (noteError e s).padLimit128 = s.padLimit128 := rfl
@[simp] theorem noteError_host (e : RespCode) (s : State) : (noteError e s).host = s.host := rfl
@[simp] theorem noteError_responses (e : RespCode) (s : State) : (noteError e s).responses = s.responses := rfl
@[simp] theorem noteError_resets (e : RespCode) (s : State) : (noteError e s).resets = s.resets := rfl

/-! ## noteOk -/

@[simp] theorem noteOk_phase (s : State) : (noteOk s).phase = s.phase := rfl
@[simp] theorem noteOk_alg (s : State) : (noteOk s).alg = s.alg := rfl
@[simp] theorem noteOk_h (s : State) : (noteOk s).h = s.h := rfl
@[simp] theorem noteOk_len (s : State) : (noteOk s).len = s.len := rfl
@[simp] theorem noteOk_buf (s : State) : (noteOk s).buf = s.buf := rfl
@[simp] theorem noteOk_fill (s : State) : (noteOk s).fill = s.fill := rfl
@[simp] theorem noteOk_lastErr (s : State) : (noteOk s).lastErr = .ok := rfl
@[simp] theorem noteOk_errSticky (s : State) : (noteOk s).errSticky = s.errSticky := rfl
@[simp] theorem noteOk_padLimit128 (s : State) : (noteOk s).padLimit128 = s.padLimit128 := rfl
@[simp] theorem noteOk_host (s : State) : (noteOk s).host = s.host := rfl
@[simp] theorem noteOk_responses (s : State) : (noteOk s).responses = s.responses := rfl
@[simp] theorem noteOk_resets (s : State) : (noteOk s).resets = s.resets := rfl

/-! ## clearErrors -/

@[simp] theorem clearErrors_phase (s : State) : (clearErrors s).phase = s.phase := rfl
@[simp] theorem clearErrors_alg (s : State) : (clearErrors s).alg = s.alg := rfl
@[simp] theorem clearErrors_h (s : State) : (clearErrors s).h = s.h := rfl
@[simp] theorem clearErrors_len (s : State) : (clearErrors s).len = s.len := rfl
@[simp] theorem clearErrors_buf (s : State) : (clearErrors s).buf = s.buf := rfl
@[simp] theorem clearErrors_fill (s : State) : (clearErrors s).fill = s.fill := rfl
@[simp] theorem clearErrors_lastErr (s : State) : (clearErrors s).lastErr = .ok := rfl
@[simp] theorem clearErrors_errSticky (s : State) : (clearErrors s).errSticky = false := rfl
@[simp] theorem clearErrors_padLimit128 (s : State) : (clearErrors s).padLimit128 = s.padLimit128 := rfl
@[simp] theorem clearErrors_host (s : State) : (clearErrors s).host = s.host := rfl
@[simp] theorem clearErrors_responses (s : State) : (clearErrors s).responses = s.responses := rfl
@[simp] theorem clearErrors_resets (s : State) : (clearErrors s).resets = s.resets := rfl

/-! ## raise -/

@[simp] theorem raise_phase (e : RespCode) (s : State) : (raise e s).phase = s.phase := rfl
@[simp] theorem raise_alg (e : RespCode) (s : State) : (raise e s).alg = s.alg := rfl
@[simp] theorem raise_h (e : RespCode) (s : State) : (raise e s).h = s.h := rfl
@[simp] theorem raise_len (e : RespCode) (s : State) : (raise e s).len = s.len := rfl
@[simp] theorem raise_buf (e : RespCode) (s : State) : (raise e s).buf = s.buf := rfl
@[simp] theorem raise_fill (e : RespCode) (s : State) : (raise e s).fill = s.fill := rfl
@[simp] theorem raise_lastErr (e : RespCode) (s : State) : (raise e s).lastErr = e := rfl
@[simp] theorem raise_errSticky (e : RespCode) (s : State) : (raise e s).errSticky = true := rfl
@[simp] theorem raise_padLimit128 (e : RespCode) (s : State) : (raise e s).padLimit128 = s.padLimit128 := rfl
@[simp] theorem raise_host (e : RespCode) (s : State) : (raise e s).host = s.host := rfl
@[simp] theorem raise_responses (e : RespCode) (s : State) : (raise e s).responses = s.responses ++ [⟨e, 0⟩] := rfl
@[simp] theorem raise_resets (e : RespCode) (s : State) : (raise e s).resets = s.resets := rfl

/-! ## complete -/

@[simp] theorem complete_phase (d : Word32) (s : State) : (complete d s).phase = s.phase := rfl
@[simp] theorem complete_alg (d : Word32) (s : State) : (complete d s).alg = s.alg := rfl
@[simp] theorem complete_h (d : Word32) (s : State) : (complete d s).h = s.h := rfl
@[simp] theorem complete_len (d : Word32) (s : State) : (complete d s).len = s.len := rfl
@[simp] theorem complete_buf (d : Word32) (s : State) : (complete d s).buf = s.buf := rfl
@[simp] theorem complete_fill (d : Word32) (s : State) : (complete d s).fill = s.fill := rfl
@[simp] theorem complete_lastErr (d : Word32) (s : State) : (complete d s).lastErr = .ok := rfl
@[simp] theorem complete_errSticky (d : Word32) (s : State) : (complete d s).errSticky = s.errSticky := rfl
@[simp] theorem complete_padLimit128 (d : Word32) (s : State) : (complete d s).padLimit128 = s.padLimit128 := rfl
@[simp] theorem complete_host (d : Word32) (s : State) : (complete d s).host = s.host := rfl
@[simp] theorem complete_responses (d : Word32) (s : State) : (complete d s).responses = s.responses ++ [⟨.ok, d⟩] := rfl
@[simp] theorem complete_resets (d : Word32) (s : State) : (complete d s).resets = s.resets := rfl

/-! ## compress -/

@[simp] theorem compress_phase (s : State) : (compress s).phase = s.phase := rfl
@[simp] theorem compress_alg (s : State) : (compress s).alg = s.alg := rfl
@[simp] theorem compress_h (s : State) : (compress s).h = compressHash s.alg s.h (s.buf.readBytes 0 s.alg.blockSize) := rfl
@[simp] theorem compress_len (s : State) : (compress s).len = s.len := rfl
@[simp] theorem compress_buf (s : State) : (compress s).buf = s.buf := rfl
@[simp] theorem compress_fill (s : State) : (compress s).fill = s.fill := rfl
@[simp] theorem compress_lastErr (s : State) : (compress s).lastErr = s.lastErr := rfl
@[simp] theorem compress_errSticky (s : State) : (compress s).errSticky = s.errSticky := rfl
@[simp] theorem compress_padLimit128 (s : State) : (compress s).padLimit128 = s.padLimit128 := rfl
@[simp] theorem compress_host (s : State) : (compress s).host = s.host := rfl
@[simp] theorem compress_responses (s : State) : (compress s).responses = s.responses := rfl
@[simp] theorem compress_resets (s : State) : (compress s).resets = s.resets := rfl

/-! ## padMark -/

@[simp] theorem padMark_phase (s : State) : (padMark s).phase = s.phase := rfl
@[simp] theorem padMark_alg (s : State) : (padMark s).alg = s.alg := rfl
@[simp] theorem padMark_h (s : State) : (padMark s).h = s.h := rfl
@[simp] theorem padMark_len (s : State) : (padMark s).len = s.len := rfl
@[simp] theorem padMark_buf (s : State) : (padMark s).buf = s.buf.write s.fill 0x80 := rfl
@[simp] theorem padMark_fill (s : State) : (padMark s).fill = s.fill := rfl
@[simp] theorem padMark_lastErr (s : State) : (padMark s).lastErr = s.lastErr := rfl
@[simp] theorem padMark_errSticky (s : State) : (padMark s).errSticky = s.errSticky := rfl
@[simp] theorem padMark_padLimit128 (s : State) : (padMark s).padLimit128 = s.padLimit128 := rfl
@[simp] theorem padMark_host (s : State) : (padMark s).host = s.host := rfl
@[simp] theorem padMark_responses (s : State) : (padMark s).responses = s.responses := rfl
@[simp] theorem padMark_resets (s : State) : (padMark s).resets = s.resets := rfl

/-! ## padLength -/

@[simp] theorem padLength_phase (n : Nat) (s : State) : (padLength n s).phase = s.phase := rfl
@[simp] theorem padLength_alg (n : Nat) (s : State) : (padLength n s).alg = s.alg := rfl
@[simp] theorem padLength_h (n : Nat) (s : State) : (padLength n s).h = s.h := rfl
@[simp] theorem padLength_len (n : Nat) (s : State) : (padLength n s).len = s.len := rfl
@[simp] theorem padLength_buf (n : Nat) (s : State) : (padLength n s).buf = (s.buf.zeroFill n (s.alg.blockSize - 8)).writeBytes (s.alg.blockSize - 8) (lengthField s.alg s.len) := rfl
@[simp] theorem padLength_fill (n : Nat) (s : State) : (padLength n s).fill = s.fill := rfl
@[simp] theorem padLength_lastErr (n : Nat) (s : State) : (padLength n s).lastErr = s.lastErr := rfl
@[simp] theorem padLength_errSticky (n : Nat) (s : State) : (padLength n s).errSticky = s.errSticky := rfl
@[simp] theorem padLength_padLimit128 (n : Nat) (s : State) : (padLength n s).padLimit128 = s.padLimit128 := rfl
@[simp] theorem padLength_host (n : Nat) (s : State) : (padLength n s).host = s.host := rfl
@[simp] theorem padLength_responses (n : Nat) (s : State) : (padLength n s).responses = s.responses := rfl
@[simp] theorem padLength_resets (n : Nat) (s : State) : (padLength n s).resets = s.resets := rfl

/-! ## initEngine -/

@[simp] theorem initEngine_phase (a : Alg) (s : State) : (initEngine a s).phase = .fresh := rfl
@[simp] theorem initEngine_alg (a : Alg) (s : State) : (initEngine a s).alg = a := rfl
@[simp] theorem initEngine_h (a : Alg) (s : State) : (initEngine a s).h = initialHash a := rfl
@[simp] theorem initEngine_len (a : Alg) (s : State) : (initEngine a s).len = 0 := rfl
@[simp] theorem initEngine_buf (a : Alg) (s : State) : (initEngine a s).buf = s.buf := rfl
@[simp] theorem initEngine_fill (a : Alg) (s : State) : (initEngine a s).fill = 0 := rfl
@[simp] theorem initEngine_lastErr (a : Alg) (s : State) : (initEngine a s).lastErr = .ok := rfl
@[simp] theorem initEngine_errSticky (a : Alg) (s : State) : (initEngine a s).errSticky = false := rfl
@[simp] theorem initEngine_padLimit128 (a : Alg) (s : State) : (initEngine a s).padLimit128 = s.padLimit128 := rfl
@[simp] theorem initEngine_host (a : Alg) (s : State) : (initEngine a s).host = s.host := rfl
@[simp] theorem initEngine_responses (a : Alg) (s : State) : (initEngine a s).responses = s.responses ++ [⟨.ok, 0⟩] := rfl
@[simp] theorem initEngine_resets (a : Alg) (s : State) : (initEngine a s).resets = s.resets := rfl

/-! ## readStatus -/

@[simp] theorem readStatus_phase (s : State) : (readStatus s).phase = s.phase := rfl
@[simp] theorem readStatus_alg (s : State) : (readStatus s).alg = s.alg := rfl
@[simp] theorem readStatus_h (s : State) : (readStatus s).h = s.h := rfl
@[simp] theorem readStatus_len (s : State) : (readStatus s).len = s.len := rfl
@[simp] theorem readStatus_buf (s : State) : (readStatus s).buf = s.buf := rfl
@[simp] theorem readStatus_fill (s : State) : (readStatus s).fill = s.fill := rfl
@[simp] theorem readStatus_lastErr (s : State) : (readStatus s).lastErr = s.lastErr := rfl
@[simp] theorem readStatus_errSticky (s : State) : (readStatus s).errSticky = s.errSticky := rfl
@[simp] theorem readStatus_padLimit128 (s : State) : (readStatus s).padLimit128 = s.padLimit128 := rfl
@[simp] theorem readStatus_host (s : State) : (readStatus s).host = s.host := rfl
@[simp] theorem readStatus_responses (s : State) : (readStatus s).responses = s.responses ++ [⟨.ok, statusWord s⟩] := rfl
@[simp] theorem readStatus_resets (s : State) : (readStatus s).resets = s.resets := rfl

/-! ## takeReset -/

@[simp] theorem takeReset_phase (s : State) : (takeReset s).phase = .unconfigured := rfl
@[simp] theorem takeReset_alg (s : State) : (takeReset s).alg = .md4 := rfl
@[simp] theorem takeReset_h (s : State) : (takeReset s).h = Vector.ofFn (Config.resetHash s.resets) := rfl
@[simp] theorem takeReset_len (s : State) : (takeReset s).len = 0 := rfl
@[simp] theorem takeReset_buf (s : State) : (takeReset s).buf = s.buf := rfl
@[simp] theorem takeReset_fill (s : State) : (takeReset s).fill = 0 := rfl
@[simp] theorem takeReset_lastErr (s : State) : (takeReset s).lastErr = .ok := rfl
@[simp] theorem takeReset_errSticky (s : State) : (takeReset s).errSticky = false := rfl
@[simp] theorem takeReset_padLimit128 (s : State) : (takeReset s).padLimit128 = s.padLimit128 := rfl
@[simp] theorem takeReset_host (s : State) : (takeReset s).host = s.host := rfl
@[simp] theorem takeReset_responses (s : State) : (takeReset s).responses = s.responses := rfl
@[simp] theorem takeReset_resets (s : State) : (takeReset s).resets = s.resets + 1 := rfl

/-! ## issueCommand -/

@[simp] theorem issueCommand_phase (w : Word64) (s : State) : (issueCommand w s).phase = s.phase := rfl
@[simp] theorem issueCommand_alg (w : Word64) (s : State) : (issueCommand w s).alg = s.alg := rfl
@[simp] theorem issueCommand_h (w : Word64) (s : State) : (issueCommand w s).h = s.h := rfl
@[simp] theorem issueCommand_len (w : Word64) (s : State) : (issueCommand w s).len = s.len := rfl
@[simp] theorem issueCommand_buf (w : Word64) (s : State) : (issueCommand w s).buf = s.buf := rfl
@[simp] theorem issueCommand_fill (w : Word64) (s : State) : (issueCommand w s).fill = s.fill := rfl
@[simp] theorem issueCommand_lastErr (w : Word64) (s : State) : (issueCommand w s).lastErr = s.lastErr := rfl
@[simp] theorem issueCommand_errSticky (w : Word64) (s : State) : (issueCommand w s).errSticky = s.errSticky := rfl
@[simp] theorem issueCommand_padLimit128 (w : Word64) (s : State) : (issueCommand w s).padLimit128 = s.padLimit128 := rfl
@[simp] theorem issueCommand_host (w : Word64) (s : State) : (issueCommand w s).host = .command w :: s.host := rfl
@[simp] theorem issueCommand_responses (w : Word64) (s : State) : (issueCommand w s).responses = s.responses := rfl
@[simp] theorem issueCommand_resets (w : Word64) (s : State) : (issueCommand w s).resets = s.resets := rfl

end Sys2Proof.Machine
end

