-- ==== Sys2Proof/Laws/Engine.lean ====
section
/-! SUPPORT. What each shared operation of the engine can do, said once. -/

namespace Sys2Proof.Machine

/-! ## Parameters -/

theorem blockSize_cases (alg : Alg) : alg.blockSize = 64 ∨ alg.blockSize = 128 := by
  cases alg <;> simp [Alg.blockSize]

theorem blockSize_pos (alg : Alg) : 0 < alg.blockSize := by
  rcases blockSize_cases alg with h | h <;> omega

theorem blockSize_le (alg : Alg) : alg.blockSize ≤ 128 := by
  rcases blockSize_cases alg with h | h <;> omega

/-- The block size divides 2^64, so LEN mod bs survives the wrap of LEN (10_state.md R33). -/
theorem blockSize_dvd (alg : Alg) : alg.blockSize ∣ 2 ^ 64 := by
  rcases blockSize_cases alg with h | h <;> rw [h] <;> decide

theorem padLimitOf_le (p : PadLimit128) (alg : Alg) : padLimitOf p alg ≤ alg.blockSize - 8 := by
  cases p <;> cases alg <;> decide

theorem lengthField_length (alg : Alg) (len : Word64) : (lengthField alg len).length = 8 := by
  cases alg <;> rfl

theorem accepting_iff (p : Phase) : p.accepting = true ↔ p = .fresh ∨ p = .accumulating := by
  cases p <;> simp [Phase.accepting]

/-! ## ABSORB -/

/-- ABSORB where the byte does not fill the block. -/
theorem absorb_inside (s : State) (b : Byte) (h : s.fill.toNat + 1 ≠ s.alg.blockSize) :
    absorb s b = { s with
      buf := s.buf.write s.fill b, len := s.len + 1, fill := BitVec.ofNat 7 (s.fill.toNat + 1) } := by
  simp [absorb, h]

/-- ABSORB where the byte fills the block. -/
theorem absorb_full (s : State) (b : Byte) (h : s.fill.toNat + 1 = s.alg.blockSize) :
    absorb s b = { s with
      buf := s.buf.write s.fill b, len := s.len + 1, fill := 0,
      h := compressHash s.alg s.h ((s.buf.write s.fill b).readBytes 0 s.alg.blockSize) } := by
  simp [absorb, h, compress]

@[simp] theorem absorb_phase (s : State) (b : Byte) : (absorb s b).phase = s.phase := by
  unfold absorb; dsimp only; split <;> rfl
@[simp] theorem absorb_alg (s : State) (b : Byte) : (absorb s b).alg = s.alg := by
  unfold absorb; dsimp only; split <;> rfl
@[simp] theorem absorb_len (s : State) (b : Byte) : (absorb s b).len = s.len + 1 := by
  unfold absorb; dsimp only; split <;> rfl
@[simp] theorem absorb_buf (s : State) (b : Byte) : (absorb s b).buf = s.buf.write s.fill b := by
  unfold absorb; dsimp only; split <;> rfl
@[simp] theorem absorb_lastErr (s : State) (b : Byte) : (absorb s b).lastErr = s.lastErr := by
  unfold absorb; dsimp only; split <;> rfl
@[simp] theorem absorb_errSticky (s : State) (b : Byte) : (absorb s b).errSticky = s.errSticky := by
  unfold absorb; dsimp only; split <;> rfl
@[simp] theorem absorb_padLimit128 (s : State) (b : Byte) : (absorb s b).padLimit128 = s.padLimit128 := by
  unfold absorb; dsimp only; split <;> rfl
@[simp] theorem absorb_host (s : State) (b : Byte) : (absorb s b).host = s.host := by
  unfold absorb; dsimp only; split <;> rfl
@[simp] theorem absorb_responses (s : State) (b : Byte) : (absorb s b).responses = s.responses := by
  unfold absorb; dsimp only; split <;> rfl
@[simp] theorem absorb_resets (s : State) (b : Byte) : (absorb s b).resets = s.resets := by
  unfold absorb; dsimp only; split <;> rfl

/-- A property of the state that ABSORB keeps, kept by ABSORB over a byte sequence. -/
theorem absorbBytes_keeps (P : State → Prop) (hP : ∀ s b, P s → P (absorb s b)) (bytes : List Byte) :
    ∀ s, P s → P (absorbBytes s bytes) := by
  induction bytes with
  | nil => exact fun s h => h
  | cons b bytes ih => exact fun s h => ih (absorb s b) (hP s b h)

@[simp] theorem absorbBytes_nil (s : State) : absorbBytes s [] = s := rfl
@[simp] theorem absorbBytes_cons (s : State) (b : Byte) (bytes : List Byte) :
    absorbBytes s (b :: bytes) = absorbBytes (absorb s b) bytes := rfl
theorem absorbBytes_append (s : State) (xs ys : List Byte) :
    absorbBytes s (xs ++ ys) = absorbBytes (absorbBytes s xs) ys := by
  simp [absorbBytes, List.foldl_append]

@[simp] theorem absorbBytes_phase (s : State) (bytes : List Byte) : (absorbBytes s bytes).phase = s.phase :=
  absorbBytes_keeps (fun t => t.phase = s.phase) (by simp) bytes s rfl
@[simp] theorem absorbBytes_alg (s : State) (bytes : List Byte) : (absorbBytes s bytes).alg = s.alg :=
  absorbBytes_keeps (fun t => t.alg = s.alg) (by simp) bytes s rfl
@[simp] theorem absorbBytes_lastErr (s : State) (bytes : List Byte) : (absorbBytes s bytes).lastErr = s.lastErr :=
  absorbBytes_keeps (fun t => t.lastErr = s.lastErr) (by simp) bytes s rfl
@[simp] theorem absorbBytes_errSticky (s : State) (bytes : List Byte) :
    (absorbBytes s bytes).errSticky = s.errSticky :=
  absorbBytes_keeps (fun t => t.errSticky = s.errSticky) (by simp) bytes s rfl
@[simp] theorem absorbBytes_padLimit128 (s : State) (bytes : List Byte) :
    (absorbBytes s bytes).padLimit128 = s.padLimit128 :=
  absorbBytes_keeps (fun t => t.padLimit128 = s.padLimit128) (by simp) bytes s rfl
@[simp] theorem absorbBytes_host (s : State) (bytes : List Byte) : (absorbBytes s bytes).host = s.host :=
  absorbBytes_keeps (fun t => t.host = s.host) (by simp) bytes s rfl
@[simp] theorem absorbBytes_responses (s : State) (bytes : List Byte) :
    (absorbBytes s bytes).responses = s.responses :=
  absorbBytes_keeps (fun t => t.responses = s.responses) (by simp) bytes s rfl
@[simp] theorem absorbBytes_resets (s : State) (bytes : List Byte) : (absorbBytes s bytes).resets = s.resets :=
  absorbBytes_keeps (fun t => t.resets = s.resets) (by simp) bytes s rfl

theorem absorbBytes_len (bytes : List Byte) :
    ∀ s, (absorbBytes s bytes).len = s.len + BitVec.ofNat 64 bytes.length := by
  induction bytes with
  | nil => intro s; simp
  | cons b bytes ih =>
    intro s
    rw [absorbBytes_cons, ih, absorb_len, List.length_cons, BitVec.add_assoc]
    congr 1
    rw [Nat.add_comm, BitVec.ofNat_add]
    rfl

/-! ## PAD_AND_FINISH -/

/-- The two outcomes of the extra-block step (40_engine_commands.md R94). -/
theorem padExtraBlock_cases (n : Nat) (s : State) :
    (n ≤ padLimit s ∧ padExtraBlock n s = (s, n)) ∨
    (padLimit s < n ∧
      padExtraBlock n s = (compress { s with buf := s.buf.zeroFill n s.alg.blockSize }, 0)) := by
  unfold padExtraBlock
  by_cases h : padLimit s < n
  · exact .inr ⟨h, by rw [if_pos h]⟩
  · exact .inl ⟨by omega, by rw [if_neg h]⟩

/-- PAD_AND_FINISH with the fill-count n after the 0x80 byte: one block, or two. -/
theorem padAndFinish_cases (s : State) :
    (s.fill.toNat + 1 ≤ padLimit s ∧
      padAndFinish s = compress (padLength (s.fill.toNat + 1) (padMark s))) ∨
    (padLimit s < s.fill.toNat + 1 ∧
      padAndFinish s = compress (padLength 0
        (compress { padMark s with buf := (padMark s).buf.zeroFill (s.fill.toNat + 1) s.alg.blockSize }))) := by
  have hl : padLimit (padMark s) = padLimit s := rfl
  unfold padAndFinish
  rcases padExtraBlock_cases (s.fill.toNat + 1) (padMark s) with ⟨h, e⟩ | ⟨h, e⟩
  · exact .inl ⟨hl ▸ h, by rw [e]⟩
  · exact .inr ⟨hl ▸ h, by rw [e]; rfl⟩

@[simp] theorem padAndFinish_phase (s : State) : (padAndFinish s).phase = s.phase := by
  rcases padAndFinish_cases s with ⟨_, e⟩ | ⟨_, e⟩ <;> rw [e] <;> rfl
@[simp] theorem padAndFinish_alg (s : State) : (padAndFinish s).alg = s.alg := by
  rcases padAndFinish_cases s with ⟨_, e⟩ | ⟨_, e⟩ <;> rw [e] <;> rfl
@[simp] theorem padAndFinish_len (s : State) : (padAndFinish s).len = s.len := by
  rcases padAndFinish_cases s with ⟨_, e⟩ | ⟨_, e⟩ <;> rw [e] <;> rfl
@[simp] theorem padAndFinish_lastErr (s : State) : (padAndFinish s).lastErr = s.lastErr := by
  rcases padAndFinish_cases s with ⟨_, e⟩ | ⟨_, e⟩ <;> rw [e] <;> rfl
@[simp] theorem padAndFinish_errSticky (s : State) : (padAndFinish s).errSticky = s.errSticky := by
  rcases padAndFinish_cases s with ⟨_, e⟩ | ⟨_, e⟩ <;> rw [e] <;> rfl
@[simp] theorem padAndFinish_padLimit128 (s : State) : (padAndFinish s).padLimit128 = s.padLimit128 := by
  rcases padAndFinish_cases s with ⟨_, e⟩ | ⟨_, e⟩ <;> rw [e] <;> rfl
@[simp] theorem padAndFinish_host (s : State) : (padAndFinish s).host = s.host := by
  rcases padAndFinish_cases s with ⟨_, e⟩ | ⟨_, e⟩ <;> rw [e] <;> rfl
@[simp] theorem padAndFinish_responses (s : State) : (padAndFinish s).responses = s.responses := by
  rcases padAndFinish_cases s with ⟨_, e⟩ | ⟨_, e⟩ <;> rw [e] <;> rfl
@[simp] theorem padAndFinish_resets (s : State) : (padAndFinish s).resets = s.resets := by
  rcases padAndFinish_cases s with ⟨_, e⟩ | ⟨_, e⟩ <;> rw [e] <;> rfl

/-! ## The whole commands -/

theorem updateEngine_accepting (bytes : List Byte) (s : State) (h : s.phase.accepting = true) :
    updateEngine bytes s = complete 0 { absorbBytes s bytes with phase := .accumulating } := by
  simp [updateEngine, h]

theorem updateEngine_not_accepting (bytes : List Byte) (s : State) (h : s.phase.accepting = false) :
    updateEngine bytes s = raise .invalidState s := by
  simp [updateEngine, h]

theorem finalizeEngine_accepting (s : State) (h : s.phase.accepting = true) :
    finalizeEngine s = complete 0 { padAndFinish s with fill := 0, phase := .finalized } := by
  simp [finalizeEngine, h]

theorem finalizeEngine_not_accepting (s : State) (h : s.phase.accepting = false) :
    finalizeEngine s = raise .invalidState s := by
  simp [finalizeEngine, h]

/-- The three outcomes of READ_DIGEST (40_engine_commands.md R88). -/
theorem readDigest_cases (idx : Nat) (s : State) :
    (s.phase ≠ .finalized ∧ readDigest idx s = raise .invalidState s) ∨
    (s.phase = .finalized ∧ s.alg.digestBytes ≤ idx ∧ readDigest idx s = raise .indexRange s) ∨
    (s.phase = .finalized ∧ idx < s.alg.digestBytes ∧
      readDigest idx s = complete ((digestByte s.alg s.h idx).setWidth 32) s) := by
  unfold readDigest
  by_cases h : s.phase = .finalized
  · rw [if_pos h]
    by_cases h2 : idx < s.alg.digestBytes
    · exact .inr (.inr ⟨h, h2, by rw [if_pos h2]⟩)
    · exact .inr (.inl ⟨h, by omega, by rw [if_neg h2]⟩)
  · exact .inl ⟨h, by rw [if_neg h]⟩

/-! ## One instruction, one step -/

/-- What `exec` answers, by kind of command: the whole of it. -/
theorem exec_cases (i : Instr) (s : State) :
    (∃ alg, i = initCommand alg ∧ updatePayload i = none ∧ exec i s = .next (initEngine alg s)) ∨
    (∃ bytes, updatePayload i = some bytes ∧ (∀ alg, i ≠ initCommand alg) ∧
      exec i s = .next (updateEngine bytes s)) ∨
    (i = .finalize ∧ exec i s = .next (finalizeEngine s)) ∨
    (∃ idx, i = .rdigIdx idx ∧ exec i s = .next (readDigest idx.toNat s)) ∨
    (i = .rstat ∧ exec i s = .next (readStatus s)) := by
  cases i with
  | initMd4 => exact .inl ⟨.md4, rfl, rfl, rfl⟩
  | initMd5 => exact .inl ⟨.md5, rfl, rfl, rfl⟩
  | initSha1 => exact .inl ⟨.sha1, rfl, rfl, rfl⟩
  | initSha224 => exact .inl ⟨.sha224, rfl, rfl, rfl⟩
  | initSha256 => exact .inl ⟨.sha256, rfl, rfl, rfl⟩
  | initSha384 => exact .inl ⟨.sha384, rfl, rfl, rfl⟩
  | initSha512 => exact .inl ⟨.sha512, rfl, rfl, rfl⟩
  | update data => exact .inr (.inl ⟨payload 0 data, rfl, fun alg => by cases alg <;> simp [initCommand], rfl⟩)
  | updateB0 data => exact .inr (.inl ⟨payload 1 data, rfl, fun alg => by cases alg <;> simp [initCommand], rfl⟩)
  | updateB0B1 data => exact .inr (.inl ⟨payload 2 data, rfl, fun alg => by cases alg <;> simp [initCommand], rfl⟩)
  | updateB0B1B2 data => exact .inr (.inl ⟨payload 3 data, rfl, fun alg => by cases alg <;> simp [initCommand], rfl⟩)
  | updateB0B1B2B3 data => exact .inr (.inl ⟨payload 4 data, rfl, fun alg => by cases alg <;> simp [initCommand], rfl⟩)
  | finalize => exact .inr (.inr (.inl ⟨rfl, rfl⟩))
  | rdigIdx idx => exact .inr (.inr (.inr (.inl ⟨idx, rfl, rfl⟩)))
  | rstat => exact .inr (.inr (.inr (.inr ⟨rfl, rfl⟩)))

/-- What a step is: an idle engine, a reset event, a command, or an illegal word. -/
theorem step_cases (s : State) :
    (s.host = [] ∧ step s = .next s) ∨
    (∃ rest, s.host = .reset :: rest ∧ step s = .next (takeReset { s with host := rest })) ∨
    (∃ w rest i, s.host = .command w :: rest ∧ decode w = .command i ∧ step s = exec i { s with host := rest }) ∨
    (∃ w rest why, s.host = .command w :: rest ∧ decode w = .illegal why ∧
      step s = .next (raise .illegalCommand { s with host := rest })) := by
  unfold step takeMove
  cases hh : s.host with
  | nil => exact .inl ⟨rfl, rfl⟩
  | cons m rest =>
    cases m with
    | reset => exact .inr (.inl ⟨rest, rfl, rfl⟩)
    | command w =>
      cases hd : decode w with
      | command i => exact .inr (.inr (.inl ⟨w, rest, i, rfl, hd, by simp [hd]⟩))
      | illegal why => exact .inr (.inr (.inr ⟨w, rest, why, rfl, hd, by simp [hd]⟩))

/-! ## COMPRESS -/

/-- A compression keeps the words of H its algorithm does not use (10_state.md R22). -/
theorem compressHash_high (alg : Alg) (h : HashFile) (blk) (j : Fin 8)
    (hj : alg.stateWords ≤ j.val) : (compressHash alg h blk)[j] = h[j] := by
  have h8 : j.val = 4 ∨ j.val = 5 ∨ j.val = 6 ∨ j.val = 7 ∨ j.val < 4 := by omega
  cases alg <;> simp only [Alg.stateWords] at hj <;> try omega
  all_goals
    obtain ⟨j, hjl⟩ := j
    simp only at h8 hj
    rcases h8 with h8 | h8 | h8 | h8 | h8 <;> first | omega | (subst h8; rfl)

/-- The words a 32-bit algorithm writes have their upper halves 0 (R22). -/
theorem compressHash_low (alg : Alg) (h : HashFile) (blk) (j : Fin 8)
    (hj : j.val < alg.stateWords) (hw : alg.wordBits = 32) : (compressHash alg h blk)[j].toNat < 2 ^ 32 := by
  have z : ∀ w : Word32, (zext64 w).toNat < 2 ^ 32 := fun w => by
    unfold zext64; rw [BitVec.toNat_setWidth]; have := w.isLt; omega
  have h8 : j.val = 0 ∨ j.val = 1 ∨ j.val = 2 ∨ j.val = 3 ∨ j.val = 4 ∨ j.val = 5 ∨ j.val = 6 ∨ j.val = 7 := by omega
  cases alg <;> simp only [Alg.stateWords, Alg.wordBits] at hj hw <;> try omega
  all_goals
    obtain ⟨j, hjl⟩ := j
    simp only at h8 hj
    rcases h8 with h8 | h8 | h8 | h8 | h8 | h8 | h8 | h8 <;> first | omega | (subst h8; exact z _)

/-- What follows the first n blocks of a byte sequence does not change their hash. -/
theorem compressBlocks_append (alg : Alg) (n : Nat) :
    ∀ (h : HashFile) (xs ys : List Byte), n * alg.blockSize ≤ xs.length →
    compressBlocks alg n h (xs ++ ys) = compressBlocks alg n h xs := by
  induction n with
  | zero => intros; rfl
  | succ n ih =>
    intro h xs ys hl
    have hb : alg.blockSize ≤ xs.length := by rw [Nat.succ_mul] at hl; omega
    unfold compressBlocks
    rw [List.take_append_of_le_length hb, List.drop_append_of_le_length hb]
    refine ih _ _ ys ?_
    rw [Nat.succ_mul] at hl
    simp; omega

/-- The last of n + 1 blocks, compressed after the first n. -/
theorem compressBlocks_succ (alg : Alg) (n : Nat) : ∀ (h : HashFile) (xs : List Byte),
    compressBlocks alg (n + 1) h xs =
      compressHash alg (compressBlocks alg n h xs) ((xs.drop (n * alg.blockSize)).take alg.blockSize) := by
  induction n with
  | zero => intro h xs; simp [compressBlocks]
  | succ n ih =>
    intro h xs
    rw [compressBlocks, ih]
    show _ = compressHash alg (compressBlocks alg n _ _) _
    congr 2
    rw [List.drop_drop, Nat.succ_mul, Nat.add_comm]

/-! ## What ABSORB and PAD_AND_FINISH leave -/

/-- FILL after ABSORB, in a legal state. -/
theorem absorb_fill (s : State) (b) (hf : s.fill.toNat < s.alg.blockSize) :
    (absorb s b).fill.toNat = (s.fill.toNat + 1) % s.alg.blockSize := by
  have h128 := blockSize_le s.alg
  by_cases h : s.fill.toNat + 1 = s.alg.blockSize
  · rw [absorb_full s b h, h, Nat.mod_self]; rfl
  · rw [absorb_inside s b h, Nat.mod_eq_of_lt (by omega)]
    show (BitVec.ofNat 7 _).toNat = _
    rw [BitVec.toNat_ofNat, Nat.mod_eq_of_lt (by omega)]

theorem absorb_wf (s : State) (b) (hw : s.buf.wf) : (absorb s b).buf.wf := by rw [absorb_buf]; exact write_wf _ _ _ hw

/-- The block PAD_AND_FINISH compresses last, from the bytes up to the fill-count n (40_engine_commands.md R95, R96). -/
theorem padLength_block (n : Nat) (s : State) (hw : s.buf.wf) (hn : n ≤ s.alg.blockSize - 8) :
    (padLength n s).buf.readBytes 0 s.alg.blockSize =
      s.buf.readBytes 0 n ++ List.replicate (s.alg.blockSize - 8 - n) 0 ++ lengthField s.alg s.len := by
  have h128 := blockSize_le s.alg
  have hge : 8 ≤ s.alg.blockSize := by rcases blockSize_cases s.alg with h | h <;> omega
  have hl := lengthField_length s.alg s.len
  rw [padLength_buf]
  have := readBytes_writeBytes (lengthField s.alg s.len) (s.buf.zeroFill n (s.alg.blockSize - 8))
    (s.alg.blockSize - 8) (zeroFill_wf _ _ _ hw) (by omega)
  rw [hl, show s.alg.blockSize - 8 + 8 = s.alg.blockSize by omega] at this
  rw [this, readBytes_zeroFill _ _ _ hw hn (by omega)]

/-- PAD_AND_FINISH in a legal state: the last block, the hash state and the memory (R93 to R97). -/
theorem padAndFinish_spec (s : State) (hf : s.fill.toNat < s.alg.blockSize) (hw : s.buf.wf) :
    let bs := s.alg.blockSize
    let n := s.fill.toNat + 1
    let marked := s.buf.readBytes 0 s.fill.toNat ++ [0x80]
    let final :=
      (if n ≤ padLimit s then marked ++ List.replicate (bs - 8 - n) 0 else List.replicate (bs - 8) 0) ++
        lengthField s.alg s.len
    (padAndFinish s).buf.readBytes 0 bs = final ∧
    (padAndFinish s).h = compressHash s.alg
      (if n ≤ padLimit s then s.h else compressHash s.alg s.h (marked ++ List.replicate (bs - n) 0)) final ∧
    (padAndFinish s).buf.wf := by
  have h128 := blockSize_le s.alg
  have hlim : padLimit s ≤ s.alg.blockSize - 8 := padLimitOf_le _ _
  have hmw : (padMark s).buf.wf := write_wf _ _ _ hw
  have hmark : (padMark s).buf.readBytes 0 (s.fill.toNat + 1) = s.buf.readBytes 0 s.fill.toNat ++ [0x80] :=
    readBytes_write_end _ _ _ hw
  dsimp only
  rcases padAndFinish_cases s with ⟨h, e⟩ | ⟨h, e⟩
  · rw [e]
    have hb := padLength_block (s.fill.toNat + 1) (padMark s) hmw (by show _ ≤ s.alg.blockSize - 8; omega)
    rw [hmark] at hb
    rw [if_pos h, if_pos h]
    refine ⟨hb, ?_, ?_⟩
    · rw [compress_h]
      show compressHash s.alg s.h ((padLength (s.fill.toNat + 1) (padMark s)).buf.readBytes 0 (padMark s).alg.blockSize) = _
      rw [hb]; rfl
    · exact writeBytes_wf _ _ _ (zeroFill_wf _ _ _ hmw)
  · rw [e]
    have hz := readBytes_zeroFill (padMark s).buf (s.fill.toNat + 1) s.alg.blockSize hmw (by omega) h128
    rw [hmark] at hz
    set s2 := compress { padMark s with buf := (padMark s).buf.zeroFill (s.fill.toNat + 1) s.alg.blockSize } with hs2
    have hb := padLength_block 0 s2 (zeroFill_wf _ _ _ hmw) (by omega)
    have hn : ¬ s.fill.toNat + 1 ≤ padLimit s := by omega
    rw [if_neg hn, if_neg hn]
    refine ⟨hb, ?_, ?_⟩
    · rw [compress_h]
      show compressHash s.alg s2.h ((padLength 0 s2).buf.readBytes 0 s2.alg.blockSize) = _
      rw [hb, hs2, compress_h]
      show compressHash s.alg (compressHash s.alg s.h
        (((padMark s).buf.zeroFill (s.fill.toNat + 1) s.alg.blockSize).readBytes 0 s.alg.blockSize)) _ = _
      rw [hz]; rfl
    · exact writeBytes_wf _ _ _ (zeroFill_wf _ _ _ (zeroFill_wf _ _ _ hmw))

theorem padAndFinish_wf (s : State) (hw : s.buf.wf) : (padAndFinish s).buf.wf := by
  rcases padAndFinish_cases s with ⟨h, e⟩ | ⟨h, e⟩ <;> rw [e]
  · exact writeBytes_wf _ _ _ (zeroFill_wf _ _ _ (write_wf _ _ _ hw))
  · exact writeBytes_wf _ _ _ (zeroFill_wf _ _ _ (zeroFill_wf _ _ _ (write_wf _ _ _ hw)))

/-! ## One command word, one step -/

theorem exec_update {i : Instr} {bytes} (h : updatePayload i = some bytes) (s) : exec i s = .next (updateEngine bytes s) := by
  cases i <;> simp [updatePayload] at h <;> subst h <;> rfl

theorem exec_initCommand (alg s) : exec (initCommand alg) s = .next (initEngine alg s) := by cases alg <;> rfl

/-- An UPDATE command is no other command. -/
theorem updatePayload_ne {i : Instr} {b} (h : updatePayload i = some b) :
    (∀ a, i ≠ initCommand a) ∧ i ≠ .finalize ∧ (∀ x, i ≠ .rdigIdx x) ∧ i ≠ .rstat := by
  cases i <;> simp [updatePayload] at h <;> refine ⟨fun a => ?_, by simp, by simp, by simp⟩ <;> cases a <;> simp [initCommand]

theorem initCommand_inj {a b : Alg} (h : initCommand a = initCommand b) : a = b := by
  cases a <;> cases b <;> simp [initCommand] at h ⊢

theorem step_issued (i : Instr) (hd : decode (encode i) = .command i) (s : State) (rest)
    (hh : s.host = .command (encode i) :: rest) : step s = exec i { s with host := rest } := by
  rcases step_cases s with ⟨h, _⟩ | ⟨r, h, _⟩ | ⟨w', r, j, h, hd', e⟩ | ⟨w', r, y, h, hd', e⟩
  all_goals rw [hh] at h; try cases h
  · rw [hd] at hd'; cases hd'; exact e
  · rw [hd] at hd'; cases hd'

/-- Everything the step of a command word can do: it raises an error, or it completes as one of the five commands
(60_exceptions.md R251 to R255; 40_engine_commands.md R80). -/
theorem step_command_cases (s t : State) (w : Word64) (rest : List HostMove)
    (hh : s.host = .command w :: rest) (e : step s = .next t) :
    (∃ er, er ≠ .ok ∧ t = raise er { s with host := rest } ∧
      (∀ a, decode w ≠ .command (initCommand a)) ∧ decode w ≠ .command .rstat ∧
      ((er = .illegalCommand ∧ ∀ i, decode w ≠ .command i) ∨
        (er = .invalidState ∧ ∃ i, decode w = .command i ∧ (∀ x, i = .rdigIdx x → s.phase ≠ .finalized)) ∨
        (er = .indexRange ∧ s.phase = .finalized ∧ ∃ x, decode w = .command (.rdigIdx x) ∧ s.alg.digestBytes ≤ x.toNat))) ∨
    (∃ d, t.responses = s.responses ++ [⟨.ok, d⟩] ∧
      ((∃ a, decode w = .command (initCommand a) ∧ d = 0 ∧ t = initEngine a { s with host := rest }) ∨
        (∃ i b, decode w = .command i ∧ updatePayload i = some b ∧ s.phase.accepting = true ∧ d = 0 ∧
          t = complete 0 { absorbBytes { s with host := rest } b with phase := .accumulating }) ∨
        (decode w = .command .finalize ∧ s.phase.accepting = true ∧ d = 0 ∧
          t = complete 0 { padAndFinish { s with host := rest } with fill := 0, phase := .finalized }) ∨
        (∃ x, decode w = .command (.rdigIdx x) ∧ s.phase = .finalized ∧ x.toNat < s.alg.digestBytes ∧
          d = (digestByte s.alg s.h x.toNat).setWidth 32 ∧ t = complete d { s with host := rest }) ∨
        (decode w = .command .rstat ∧ t = readStatus { s with host := rest }))) := by
  rcases step_cases s with ⟨h, _⟩ | ⟨r, h, _⟩ | ⟨w', r, j, h, hd, e'⟩ | ⟨w', r, y, h, hd, e'⟩
  all_goals rw [hh] at h; try cases h
  · rw [e'] at e
    rcases exec_cases j { s with host := rest } with
      ⟨a, ha, _, e2⟩ | ⟨b, hb, hni, e2⟩ | ⟨hf, e2⟩ | ⟨x, hx, e2⟩ | ⟨hr, e2⟩ <;> (rw [e2] at e; cases e)
    · subst ha; exact .inr ⟨0, rfl, .inl ⟨a, hd, rfl, rfl⟩⟩
    · obtain ⟨n1, n2, n3, n4⟩ := updatePayload_ne hb
      cases hp : s.phase.accepting
      · rw [updateEngine_not_accepting b { s with host := rest } hp]
        refine .inl ⟨.invalidState, by simp, rfl, fun a h => ?_, fun h => ?_,
          .inr (.inl ⟨rfl, j, hd, fun x hx => absurd hx (n3 x)⟩)⟩
        · rw [hd] at h; cases h; exact n1 a rfl
        · rw [hd] at h; cases h; exact n4 rfl
      · rw [updateEngine_accepting b { s with host := rest } hp]
        exact .inr ⟨0, by simp, .inr (.inl ⟨j, b, hd, hb, rfl, rfl, rfl⟩)⟩
    · subst hf
      cases hp : s.phase.accepting
      · rw [finalizeEngine_not_accepting { s with host := rest } hp]
        refine .inl ⟨.invalidState, by simp, rfl, fun a h => ?_, fun h => ?_,
          .inr (.inl ⟨rfl, _, hd, fun x hx => by cases hx⟩)⟩
        · rw [hd] at h; cases a <;> simp [initCommand] at h
        · rw [hd] at h; cases h
      · rw [finalizeEngine_accepting { s with host := rest } hp]
        exact .inr ⟨0, by simp, .inr (.inr (.inl ⟨hd, rfl, rfl, rfl⟩))⟩
    · subst hx
      have ni : ∀ a, decode w ≠ .command (initCommand a) := fun a h => by rw [hd] at h; cases a <;> simp [initCommand] at h
      have nr : decode w ≠ .command .rstat := fun h => by rw [hd] at h; cases h
      rcases readDigest_cases x.toNat { s with host := rest } with ⟨h, e⟩ | ⟨h, h2, e⟩ | ⟨h, h2, e⟩ <;> rw [e]
      · exact .inl ⟨.invalidState, by simp, rfl, ni, nr, .inr (.inl ⟨rfl, _, hd, fun _ _ => h⟩)⟩
      · exact .inl ⟨.indexRange, by simp, rfl, ni, nr, .inr (.inr ⟨rfl, h, x, hd, h2⟩)⟩
      · exact .inr ⟨_, rfl, .inr (.inr (.inr (.inl ⟨x, hd, h, h2, rfl, rfl⟩)))⟩
    · subst hr
      exact .inr ⟨_, rfl, .inr (.inr (.inr (.inr ⟨hd, rfl⟩)))⟩
  · rw [e'] at e; cases e
    refine .inl ⟨.illegalCommand, by simp, rfl, fun a h => (by rw [hd] at h; cases h), fun h => (by rw [hd] at h; cases h),
      .inl ⟨rfl, fun i h => (by rw [hd] at h; cases h)⟩⟩

/-! ## Runs -/

theorem run_next (n : Nat) (s s' : State) (h : step s = .next s') :
    Host.Core.run Sys2Proof.core (n + 1) s = Host.Core.run Sys2Proof.core n s' := by
  have h' : Sys2Proof.core.step s = .next s' := h
  simp only [Host.Core.run, h']

/-- A run of m + n steps is a run of m steps and then n. -/
theorem run_add (n : Nat) (s t : State) : ∀ m, Host.Core.run Sys2Proof.core m s = .next t →
    Host.Core.run Sys2Proof.core (m + n) s = Host.Core.run Sys2Proof.core n t := by
  intro m
  induction m generalizing s with
  | zero => intro h; cases h; simp
  | succ m ih =>
    intro h
    cases hs : step s with
    | next s' =>
      rw [run_next _ _ _ hs] at h
      rw [Nat.succ_add, run_next _ _ _ hs]; exact ih s' h
    | fault r => cases r
    | refused r => 
      have : Sys2Proof.core.step s = .refused r := hs
      simp only [Host.Core.run, this] at h; cases h

end Sys2Proof.Machine
end

