-- ==== Sys2Proof/Laws/PerInstr.lean ====
section
/-! SUPPORT. Statements made once for each command. -/

namespace Sys2Proof.Laws.EncodeFields

/-- The fields of a command's word: RSV1 and RSV2 are 0, and OPC is the opcode of 30_encoding.md R62. -/
def Statement (i : Instr) : Prop :=
  rsv1Field (encode i) = 0 ∧ rsv2Field (encode i) = 0 ∧
  opcField (encode i) =
    (match i with
     | .initMd4 | .initMd5 | .initSha1 | .initSha224 | .initSha256 | .initSha384 | .initSha512 => 0x1
     | .update _ | .updateB0 _ | .updateB0B1 _ | .updateB0B1B2 _ | .updateB0B1B2B3 _ => 0x2
     | .finalize => 0x3
     | .rdigIdx _ => 0x4
     | .rstat => 0x5)

theorem initMd4 : Statement .initMd4 := by simp [Statement, encode]
theorem initMd5 : Statement .initMd5 := by simp [Statement, encode]
theorem initSha1 : Statement .initSha1 := by simp [Statement, encode]
theorem initSha224 : Statement .initSha224 := by simp [Statement, encode]
theorem initSha256 : Statement .initSha256 := by simp [Statement, encode]
theorem initSha384 : Statement .initSha384 := by simp [Statement, encode]
theorem initSha512 : Statement .initSha512 := by simp [Statement, encode]
theorem update (data : Word32) : Statement (.update data) := by simp [Statement, encode]
theorem updateB0 (data : Word32) : Statement (.updateB0 data) := by simp [Statement, encode]
theorem updateB0B1 (data : Word32) : Statement (.updateB0B1 data) := by simp [Statement, encode]
theorem updateB0B1B2 (data : Word32) : Statement (.updateB0B1B2 data) := by simp [Statement, encode]
theorem updateB0B1B2B3 (data : Word32) : Statement (.updateB0B1B2B3 data) := by simp [Statement, encode]
theorem finalize : Statement .finalize := by simp [Statement, encode]
theorem rdigIdx (idx : BitVec 8) : Statement (.rdigIdx idx) := by simp [Statement, encode]
theorem rstat : Statement .rstat := by simp [Statement, encode]

end Sys2Proof.Laws.EncodeFields
end

