-- ==== Sys2Proof/Tests/Slice0.lean ====
section
/-! SUPPORT. Tests against the vectors of 95_test_vectors.md, and for each statement with hypotheses a state that meets them. -/

namespace Sys2Proof.Tests
open Sys2Proof.Machine

set_option Elab.async false

/-! ## Helpers -/

/-- Whether an outcome is a next state. -/
def answers : Host.Outcome State Fault Refusal → Bool
  | .next _ => true
  | .fault _ => false
  | .refused _ => false

/-- The next state of an outcome. -/
def stateOf : Host.Outcome State Fault Refusal → State
  | .next s => s
  | .fault _ => State.reset
  | .refused _ => State.reset

theorem eq_next_stateOf (o : Host.Outcome State Fault Refusal) (h : answers o = true) : o = .next (stateOf o) := by
  cases o with
  | next s => rfl
  | fault r => cases r
  | refused r => cases h

/-- The state after the host issues this word. -/
def after (s : State) (w : Nat) : State := stateOf (step (s.withFetchWord 64 w))

/-- The last response, as its code and rdata. -/
def lastResponse (s : State) : Option (RespCode × Word32) := s.responses.getLast?.map (fun r => (r.code, r.rdata))

/-- The engine in a phase, with the initial vector of an algorithm in H. -/
def ready (alg : Alg) (p : Phase) : State := { State.reset with alg := alg, h := initialHash alg, phase := p }

/-- The engine after "a" × n with n below the block size. -/
def letters (alg : Alg) (n : Nat) : State :=
  { ready alg .accumulating with
    buf := Memory.writeBytes [] 0 (List.replicate n 0x61), len := BitVec.ofNat 64 n, fill := BitVec.ofNat 7 n }

/-- The digest the engine holds, as numbers. -/
def digestNumbers (s : State) : List Nat := (digestOf s.alg s.h).map BitVec.toNat

/-! ## WellFormed -/

theorem test_index_64_is_ill_formed : (Instr.rdigIdx 64).wellFormed = false := by decide
theorem test_index_255_is_ill_formed : (Instr.rdigIdx 255).wellFormed = false := by decide
theorem test_index_63_is_well_formed : (Instr.rdigIdx 63).wellFormed = true := by decide

/-! ## Decode, by the words of 95_test_vectors.md §2.1 and §3 -/

theorem test_decode_initMd4 : decode 0x1000000000000000 = .command .initMd4 := by decide +kernel
theorem test_decode_initMd5 : decode 0x1001000000000000 = .command .initMd5 := by decide +kernel
theorem test_decode_initSha1 : decode 0x1002000000000000 = .command .initSha1 := by decide +kernel
theorem test_decode_initSha224 : decode 0x1003000000000000 = .command .initSha224 := by decide +kernel
theorem test_decode_initSha256 : decode 0x1004000000000000 = .command .initSha256 := by decide +kernel
theorem test_decode_initSha384 : decode 0x1005000000000000 = .command .initSha384 := by decide +kernel
theorem test_decode_initSha512 : decode 0x1006000000000000 = .command .initSha512 := by decide +kernel
theorem test_decode_update : decode 0x20000000deadbeef = .command (.update 0xdeadbeef) := by decide +kernel
theorem test_decode_updateB0 : decode 0x2001000000000061 = .command (.updateB0 0x61) := by decide +kernel
theorem test_decode_updateB0B1 : decode 0x2002000000006261 = .command (.updateB0B1 0x6261) := by decide +kernel
theorem test_decode_updateB0B1B2 : decode 0x20030000ff636261 = .command (.updateB0B1B2 0xff636261) := by decide +kernel
theorem test_decode_updateB0B1B2B3 : decode 0x2004000071706f6e = .command (.updateB0B1B2B3 0x71706f6e) := by
  decide +kernel
theorem test_decode_finalize : decode 0x3000000000000000 = .command .finalize := by decide +kernel
theorem test_decode_rdigIdx : decode 0x403f000000000000 = .command (.rdigIdx 63) := by decide +kernel
theorem test_decode_rstat : decode 0x5000000000000000 = .command .rstat := by decide +kernel

/-- The illegal words of D-E3 to D-E20. -/
theorem test_decode_illegal_words :
    ∀ w ∈ [0x1007000000000000, 0x1100000000000000, 0x1000000100000000, 0x1000000000000001, 0x2005000000000000,
        0x3001000000000000, 0x4040000000000000, 0x4000000000000001, 0x5001000000000000, 0, 0x6000000000000000,
        0x7000000000000000, 0x8000000000000000, 0x9000000000000000, 0xa000000000000000, 0xb000000000000000,
        0xc000000000000000, 0xd000000000000000, 0xe000000000000000, 0xf000000000000000],
      decodeTableWord 64 w = none := by decide +kernel

/-- A row the table gives fewer bits: the bits above are 0. -/
theorem test_decodeTableWord_rdig : decodeTableWord 64 0x4010000000000000 = some (.rdigIdx 16) := by decide +kernel

/-! ## INIT: D-C5, D-C17 and the first and last word of each initial vector (42 to 46) -/

/-- PHASE, ALG, two words of H and the status after INIT. -/
def initView (w : Nat) (j : Fin 8) : Phase × Alg × Nat × Nat × Nat :=
  let t := after { letters .md5 3 with lastErr := .indexRange, errSticky := true } w
  (t.phase, t.alg, t.h[0].toNat, t.h[j].toNat, (statusWord t).toNat)

theorem test_initMd4 : initView 0x1000000000000000 3 = (.fresh, .md4, 0x67452301, 0x10325476, 0x10000001) := by
  decide +kernel
theorem test_initMd5 : initView 0x1001000000000000 3 = (.fresh, .md5, 0x67452301, 0x10325476, 0x10000011) := by
  decide +kernel
theorem test_initSha1 : initView 0x1002000000000000 4 = (.fresh, .sha1, 0x67452301, 0xc3d2e1f0, 0x14000021) := by
  decide +kernel
theorem test_initSha224 : initView 0x1003000000000000 7 = (.fresh, .sha224, 0xc1059ed8, 0xbefa4fa4, 0x1c000031) := by
  decide +kernel
theorem test_initSha256 : initView 0x1004000000000000 7 = (.fresh, .sha256, 0x6a09e667, 0x5be0cd19, 0x20000041) := by
  decide +kernel
theorem test_initSha384 : initView 0x1005000000000000 7 =
    (.fresh, .sha384, 0xcbbb9d5dc1059ed8, 0x47b5481dbefa4fa4, 0x30000051) := by decide +kernel
theorem test_initSha512 : initView 0x1006000000000000 7 =
    (.fresh, .sha512, 0x6a09e667f3bcc908, 0x5be0cd19137e2179, 0x40000061) := by decide +kernel

/-! ## UPDATE: D-C2, D-C6 to D-C8, D-C13 and P6 -/

/-- The status, LEN, the bytes of BUF up to FILL and the last response. -/
def updateView (t : State) : Nat × Nat × List Nat × Option (RespCode × Word32) :=
  ((statusWord t).toNat, t.len.toNat, (t.buf.readBytes 0 t.fill.toNat).map BitVec.toNat, lastResponse t)

theorem test_update_empty : updateView (after (ready .md4 .fresh) 0x2000000000000000) =
    (0x10000002, 0, [], some (.ok, 0)) := by decide +kernel
theorem test_update_needs_init : updateView (after State.reset 0x2001000000000061) =
    (0x1100, 0, [], some (.invalidState, 0)) := by decide +kernel
theorem test_updateB0_one_byte : updateView (after (letters .md4 2) 0x2001000000000063) =
    (0x10030002, 3, [0x61, 0x61, 0x63], some (.ok, 0)) := by decide +kernel
theorem test_updateB0B1_order : updateView (after (ready .md4 .accumulating) 0x2002000000006261) =
    (0x10020002, 2, [0x61, 0x62], some (.ok, 0)) := by decide +kernel
theorem test_updateB0B1B2_three_bytes : updateView (after (ready .sha512 .fresh) 0x2003000000030201) =
    (0x40030062, 3, [1, 2, 3], some (.ok, 0)) := by decide +kernel
theorem test_updateB0B1B2B3_block_boundary : updateView (after (letters .sha256 62) 0x2004000065646362) =
    (0x20020042, 66, [0x64, 0x65], some (.ok, 0)) := by decide +kernel
theorem test_updateB0_finalized_is_an_error :
    updateView (after { ready .md5 .finalized with len := 1 } 0x2001000000000062) =
      (0x10001113, 1, [], some (.invalidState, 0)) := by decide +kernel

/-! ## FINALIZE: the extra block of P3, the layout of §2.3 and D-F10 -/

/-- "abcdbcde…nopq", the 56 bytes of P3. -/
def p3State : State :=
  let bytes : List Byte := (List.range 14).flatMap (fun k => (List.range 4).map (fun j => BitVec.ofNat 8 (0x61 + k + j)))
  { letters .sha1 56 with buf := Memory.writeBytes [] 0 bytes }

theorem test_finalize_extra_block :
    let t := after p3State 0x3000000000000000
    (t.h.toList.map BitVec.toNat, (statusWord t).toNat, (t.buf.readBytes 56 8).map BitVec.toNat) =
      ([0x84983e44, 0x1c3bd26e, 0xbaae4aa1, 0xf95129e5, 0xe54670f1, 0, 0, 0], 0x14000023, [0, 0, 0, 0, 0, 0, 1, 0xc0]) := by
  decide +kernel

theorem test_finalize_pad_limit_120 :
    (digestNumbers (after { letters .sha512 112 with padLimit128 := .limit120 } 0x3000000000000000)).take 8 =
      [0x31, 0xfd, 0xed, 0xe9, 0xd4, 0x6e, 0xfe, 0x02] := by
  decide +kernel

/-- The layout of §2.3 for "abc": MD5 little-endian, SHA-256 big-endian. -/
theorem test_length_field_order :
    (lengthField .md5 3).map BitVec.toNat = [0x18, 0, 0, 0, 0, 0, 0, 0] ∧
    (lengthField .sha256 3).map BitVec.toNat = [0, 0, 0, 0, 0, 0, 0, 0x18] ∧
    lengthField .sha512 (2 ^ 61 + 1) = lengthField .sha512 1 := by decide +kernel

/-! ## READ_DIGEST: P1, P6, D-C10 to D-C12; READ_STATUS: D-C1, D-C15 -/

theorem test_rdig_big_endian :
    lastResponse (after { ready .sha256 .finalized with
      h := #v[0xba7816bf, 0x8f01cfea, 0x414140de, 0x5dae2223, 0xb00361a3, 0x96177a9c, 0xb410ff61, 0xf20015ad] }
      0x401f000000000000) = some (.ok, 0xad) := by decide +kernel
theorem test_rdig_little_endian :
    lastResponse (after { ready .md4 .finalized with h := #v[0x7a0148a4, 0x52d821af, 0xe80ac15f, 0x9d72a67a, 0, 0, 0, 0] }
      0x4001000000000000) = some (.ok, 0x48) := by decide +kernel
theorem test_rdig_errors_in_order :
    lastResponse (after (ready .md5 .finalized) 0x4010000000000000) = some (.indexRange, 0) ∧
    lastResponse (after (ready .md5 .finalized) 0x4040000000000000) = some (.illegalCommand, 0) ∧
    lastResponse (after (ready .md5 .fresh) 0x4010000000000000) = some (.invalidState, 0) := by decide +kernel
theorem test_rstat_after_reset : lastResponse (after State.reset 0x5000000000000000) = some (.ok, 0) := by decide +kernel
theorem test_rstat_sha224 : lastResponse (after (ready .sha224 .finalized) 0x5000000000000000) = some (.ok, 0x1c000033) := by
  decide +kernel

/-! ## The rotator, the shifter and the mixing functions: D-B1 to D-B26 -/

theorem test_rotator :
    (rotl (0x80000000 : Word32) ⟨1, by decide⟩, rotr (1 : Word32) ⟨1, by decide⟩, rotl (0x12345678 : Word32) ⟨4, by decide⟩,
      rotl (0x12345678 : Word32) ⟨31, by decide⟩, rotr (0x12345678 : Word32) ⟨31, by decide⟩) =
      (1, 0x80000000, 0x23456781, 0x091a2b3c, 0x2468acf0) ∧
    rotr (0x0123456789abcdef : Word64) ⟨8, by decide⟩ = 0xef0123456789abcd ∧
    rotAmount 32 0 = none ∧ rotAmount 32 32 = none := by decide +kernel
theorem test_shifter_is_logical :
    shr (0xffffffff : Word32) ⟨31, by decide⟩ = 1 ∧ shr (0x80000000 : Word32) ⟨1, by decide⟩ = 0x40000000 ∧
    shr (0xffffffffffffffff : Word64) ⟨63, by decide⟩ = 1 := by decide +kernel
theorem test_mixing :
    ch (0xff00ff00 : Word32) 0x12345678 0x9abcdef0 = 0x12bc56f0 ∧
    maj (0xff00ff00 : Word32) 0x12345678 0x9abcdef0 = 0x9a34de70 ∧
    parity 0xff00ff00 0x12345678 0x9abcdef0 = 0x77887788 ∧
    md5I 0xffffffff 0x12345678 0 = 0xedcba987 ∧ md4F 0 0x12345678 0x9abcdef0 = 0x9abcdef0 := by decide +kernel
theorem test_sigma :
    ssig0_32 0xffffffff = 0x1fffffff ∧ ssig1_32 0xffffffff = 0x003fffff ∧ ssig0_64 1 = 0x8100000000000000 ∧
    ssig1_64 1 = 0x0000200000000008 ∧ bsig1_64 0xffffffffffffffff = 0xffffffffffffffff := by decide +kernel

/-- 42_md4_core.md R154 and 43_md5_core.md R175: every pass reads each block word once. -/
theorem test_word_orders :
    (∀ r < 3, ∀ k < 16, (md4Order r).count k = 1) ∧
    (∀ r < 4, ∀ k < 16, ((List.range 16).map (md5Order r)).count k = 1) := by decide +kernel

/-- 46_sha2_64_core.md R233: the first 64 constants of K512 begin with those of K256. -/
theorem test_K512_extends_K256 : (sha512K.take 64).map (fun k => k.extractLsb' 32 32) = sha256K ∧ sha512K.length = 80 := by
  decide +kernel

/-! ## The reset event (70_reset_and_hazards.md R280 to R282) -/

/-- The registers the spec gives a value, and a byte of BUF. -/
def resetView (t : State) : Phase × Alg × Nat × Nat × Nat :=
  (t.phase, t.alg, t.len.toNat, (statusWord t).toNat, (t.buf.read 4).toNat)

theorem test_reset_event :
    resetView (stateOf (step { letters .sha1 5 with host := [.reset], errSticky := true, lastErr := .indexRange })) =
      (.unconfigured, .md4, 0, 0, 0x61) := by decide +kernel

/-! ## For each statement with hypotheses, concrete values that meet them, at the ends of their ranges -/

/-- The state with the host about to make these moves. -/
def withHost (s : State) (moves : List HostMove) : State := { s with host := moves }

/-- A word that is no command. -/
theorem not_a_command (w : Word64) (h : decodeTableWord 64 w.toNat = none) (e : tableWord 64 w.toNat = w) :
    ∀ i, decode w ≠ .command i := by
  intro i hi
  unfold decodeTableWord at h
  rw [e, hi] at h
  cases h

theorem exec_next (i : Instr) (s : State) : exec i s = .next (stateOf (exec i s)) := by cases i <;> rfl

theorem witness_DecodeOfEncodeIsTheCommand : (Instr.rdigIdx 0).WellFormed ∧ (Instr.rdigIdx 63).WellFormed := by decide
theorem witness_EncodeOfDecodeIsTheWord : decode 0x2004000071706f6e = .command (.updateB0B1B2B3 0x71706f6e) :=
  test_decode_updateB0B1B2B3
theorem witness_DecodeAgreesWithTheOpcodeTable :
    decode 0x403f000000000000 = .command (.rdigIdx 63) ∧
    (0x403f000000000000 : Word64) &&& (tableRow (.rdigIdx 0)).2 = (tableRow (.rdigIdx 0)).1 :=
  ⟨test_decode_rdigIdx, by decide⟩
theorem witness_StepRunsTheDecodedCommand :
    (withHost State.reset [.command 0x5000000000000000, .reset]).host = .command 0x5000000000000000 :: [.reset] ∧
    decode 0x5000000000000000 = .command .rstat := ⟨rfl, test_decode_rstat⟩
theorem witness_IllegalWordRaisesIllegalCommand :
    (withHost (letters .md5 3) [.command 0x4040000000000000]).host = .command 0x4040000000000000 :: [] ∧
    ∀ i, decode 0x4040000000000000 ≠ .command i :=
  ⟨rfl, not_a_command _ (by decide +kernel) (by decide +kernel)⟩
theorem witness_ResetEventSetsTheResetValues : (withHost (letters .md5 3) [.reset]).host = .reset :: [] := rfl
theorem witness_UpdateAbsorbsItsPayload :
    (ready .md4 .fresh).phase = .fresh ∧ (letters .sha512 127).phase = .accumulating := by decide
/-- The last byte of a block, and one before it. -/
theorem witness_AbsorbStoresCountsAndCompresses :
    ((letters .md5 63).fill.toNat < (letters .md5 63).alg.blockSize ∧ (letters .md5 63).buf.wf ∧
      (letters .md5 63).fill.toNat + 1 = (letters .md5 63).alg.blockSize) ∧
    ((letters .sha512 63).fill.toNat < (letters .sha512 63).alg.blockSize ∧ (letters .sha512 63).buf.wf ∧
      (letters .sha512 63).fill.toNat + 1 ≠ (letters .sha512 63).alg.blockSize) := by decide +kernel
/-- The four bytes that end at the block's last but one, an unused word of H and the byte after them. -/
theorem witness_UpdateFrame :
    updatePayload (.updateB0B1B2B3 0x04030201) = some [1, 2, 3, 4] ∧ (letters .md5 59).phase.accepting = true ∧
    answers (exec (.updateB0B1B2B3 0x04030201) (letters .md5 59)) = true ∧
    (letters .md5 59).alg.stateWords ≤ (4 : Fin 8).val ∧
    (letters .md5 59).fill.toNat + [1, 2, 3, 4].length < (letters .md5 59).alg.blockSize ∧
    (63 : BitVec 7) ∉ absorbAddresses (letters .md5 59) [1, 2, 3, 4] := by decide +kernel
theorem witness_PayloadAddressesWrapAtTheBlock :
    (letters .md5 63).fill.toNat < (letters .md5 63).alg.blockSize ∧
    (absorbAddresses (letters .md5 63) [1, 2]).map BitVec.toNat = [63, 0] := by decide +kernel

/-- "a", absorbed. -/
theorem absorbed_a : Absorbed (letters .sha256 1) [0x61] :=
  ⟨by decide +kernel, by decide +kernel, by decide +kernel, by decide +kernel, by decide +kernel⟩

theorem witness_UpdateExtendsTheMessage :
    updatePayload (.updateB0 0x62) = some [0x62] ∧ (letters .sha256 1).buf.wf ∧ Absorbed (letters .sha256 1) [0x61] :=
  ⟨by decide, by decide +kernel, absorbed_a⟩
theorem witness_UpdateSplittingDoesNotMatter :
    (ready .md4 .fresh).phase.accepting = true ∧
    payloads [.updateB0B1 0x6261] = some [0x61, 0x62] ∧ payloads [.updateB0 0x61, .update 0, .updateB0 0x62] = some [0x61, 0x62] ∧
    answers (Host.Core.run Sys2Proof.core 1 { ready .md4 .fresh with host := issuing [.updateB0B1 0x6261] }) = true ∧
    answers (Host.Core.run Sys2Proof.core 3
      { ready .md4 .fresh with host := issuing [.updateB0 0x61, .update 0, .updateB0 0x62] }) = true := by decide +kernel
/-- Up to the limit (55, 111 and 119 bytes) and just beyond it, for both settings of PAD_LIMIT_128. -/
theorem witness_FinalizePadsAndCompresses :
    ∀ s ∈ [letters .sha256 55, letters .sha256 56, letters .sha512 111, letters .sha512 112,
        { letters .sha512 119 with padLimit128 := .limit120 }, { letters .sha512 120 with padLimit128 := .limit120 }],
      s.phase = .accumulating ∧ s.fill.toNat < s.alg.blockSize ∧ s.buf.wf := by decide +kernel
theorem witness_FinalizeFrame :
    (letters .md5 56).phase.accepting = true ∧ exec .finalize (letters .md5 55) = .next (stateOf (exec .finalize (letters .md5 55))) ∧
    (letters .md5 55).alg.stateWords ≤ (4 : Fin 8).val ∧
    (64 : BitVec 7) ≠ (letters .md5 55).fill ∧ (letters .md5 55).alg.blockSize ≤ (64 : BitVec 7).toNat ∧
    (letters .md5 55).fill.toNat + 1 ≤ padLimit (letters .md5 55) ∧ (54 : BitVec 7).toNat < (letters .md5 55).fill.toNat :=
  ⟨by decide, exec_next _ _, by decide, by decide, by decide, by decide, by decide⟩
/-- The last clause at its highest FILL, with PAD_LIMIT_128 = 120. -/
theorem witness_FinalizeFrame_limit120 :
    let s := { letters .sha512 119 with padLimit128 := .limit120 }
    s.phase.accepting = true ∧ exec .finalize s = .next (stateOf (exec .finalize s)) ∧
    s.fill.toNat + 1 ≤ padLimit s ∧ (118 : BitVec 7).toNat < s.fill.toNat :=
  ⟨by decide, exec_next _ _, by decide, by decide⟩
theorem witness_FinalizeFinishesTheMessage : (letters .sha256 1).buf.wf ∧ Absorbed (letters .sha256 1) [0x61] :=
  ⟨by decide +kernel, absorbed_a⟩
theorem witness_LengthFieldIsTheBitCount : (0 : Nat) < 8 ∧ (7 : Nat) < 8 := by decide
theorem witness_LengthFieldAsBlockWords :
    (List.replicate 56 (0 : Byte)).length = 56 ∧
    ∀ alg ∈ [Alg.md4, .md5, .sha1, .sha224, .sha256], alg.wordBits = 32 := by decide
theorem witness_ReadDigestAnswersTheDigestByte :
    (ready .sha224 .finalized).phase = .finalized ∧ (27 : BitVec 8).toNat < (ready .sha224 .finalized).alg.digestBytes ∧
    (ready .sha224 .finalized).h.toList[(27 : BitVec 8).toNat / ((ready .sha224 .finalized).alg.wordBits / 8)]? =
      some 0x64f98fa7 := by decide +kernel
theorem witness_ReadDigestBeyondTheDigestIsIndexRange :
    (28 : BitVec 8).toNat < 64 ∧ (63 : BitVec 8).toNat < 64 ∧ (ready .sha224 .finalized).phase = .finalized ∧
    (ready .sha224 .finalized).alg.digestBytes ≤ (28 : BitVec 8).toNat := by decide
/-- A read that succeeds, one that fails, and READ_STATUS, each twice. -/
theorem witness_ReadsAreIdempotent :
    ∀ i ∈ [Instr.rdigIdx 0, Instr.rdigIdx 63, Instr.rstat],
      (i = .rstat ∨ ∃ idx, i = .rdigIdx idx) ∧ ∃ t u, exec i (ready .md5 .finalized) = .next t ∧ exec i t = .next u := by
  intro i hi
  refine ⟨?_, _, _, exec_next _ _, exec_next _ _⟩
  simp only [List.mem_cons, List.not_mem_nil, or_false] at hi
  rcases hi with rfl | rfl | rfl
  · exact .inr ⟨0, rfl⟩
  · exact .inr ⟨63, rfl⟩
  · exact .inl rfl
theorem witness_InvalidStateIsRaisedByPhase :
    State.reset.phase = .unconfigured ∧ (ready .md5 .finalized).phase = .finalized ∧
    updatePayload (.update 7) = some [] ∧ (ready .md5 .fresh).phase ≠ .finalized := by decide
/-- Every phase, with each kind of command. -/
theorem witness_PhaseTransitionTable :
    ∀ p ∈ [Phase.unconfigured, .fresh, .accumulating, .finalized],
      ∀ i ∈ [initCommand .sha1, .updateB0 1, .finalize, .rdigIdx 0, .rdigIdx 63, .rstat],
        (ready .md5 p).phase = p ∧ i.WellFormed ∧ ∃ t, exec i (ready .md5 p) = .next t := by
  intro p _ i hi
  refine ⟨rfl, ?_, _, exec_next _ _⟩
  revert i
  decide
/-- One error of each kind: its word, the state it meets, and its response. -/
theorem witness_ErrorsWriteOnlyTheErrorFields :
    ∀ x ∈ [(0, RespCode.illegalCommand), (0x3000000000000000, .invalidState), (0x4010000000000000, .indexRange)],
      let s := withHost (ready .md5 .finalized) [.command x.1]
      answers (step s) = true ∧ (stateOf (step s)).responses = s.responses ++ [⟨x.2, 0⟩] ∧ x.2 ≠ .ok := by decide +kernel
theorem witness_ErrorPriority :
    (∀ i, decode 0x4040000000000000 ≠ .command i) ∧
    (decode 0x403f000000000000 = .command (.rdigIdx 63) ∧ (ready .md5 .fresh).phase ≠ .finalized) ∧
    ((ready .md5 .finalized).phase = .finalized ∧ (ready .md5 .finalized).alg.digestBytes ≤ (16 : BitVec 8).toNat) :=
  ⟨not_a_command _ (by decide +kernel) (by decide +kernel), ⟨test_decode_rdigIdx, by decide⟩, by decide⟩
/-- A READ_STATUS and a READ_DIGEST with rdata other than 0. -/
theorem witness_EveryCommandRespondsOnce :
    (lastResponse (after (ready .sha224 .finalized) 0x5000000000000000) = some (.ok, 0x1c000033)) ∧
    (lastResponse (after (ready .sha224 .finalized) 0x4000000000000000) = some (.ok, 0xc1)) := by decide +kernel
theorem witness_LastErrHoldsTheLastCode :
    answers (step (withHost (ready .md5 .finalized) [.command 0x5000000000000000])) = true ∧
    answers (step (withHost (ready .md5 .finalized) [.command 0x3000000000000000])) = true ∧
    answers (step (withHost (ready .md5 .finalized) [.command 0x0000000000000000])) = true := by decide +kernel
/-- An error, an INIT, a reset, and a command that is none of them. -/
theorem witness_ErrStickyIsSetByErrorsAndClearedByInit :
    ∀ m ∈ [HostMove.command 0, .command 0x1000000000000000, .reset, .command 0x5000000000000000],
      answers (step (withHost { ready .md5 .finalized with errSticky := true } [m])) = true := by decide +kernel
theorem witness_OnlyInitAndResetWriteAlg :
    decode 0x1002000000000000 = .command (initCommand .sha1) ∧
    (HostMove.command 0x5000000000000000 ≠ .reset ∧
      ∀ w alg, HostMove.command 0x5000000000000000 = .command w → decode w ≠ .command (initCommand alg)) := by
  refine ⟨test_decode_initSha1, by decide, fun w alg h e => ?_⟩
  cases h
  rw [test_decode_rstat] at e
  cases alg <;> cases e
theorem witness_LenCountsTheAbsorbedBytes :
    updatePayload (.updateB0B1B2B3 0) = some [0, 0, 0, 0] ∧
    ({ letters .md5 3 with len := 0xffffffffffffffff } : State).phase.accepting = true ∧
    updatePayload .rstat = none ∧ (ready .md5 .finalized).phase.accepting = false ∧ ∀ alg, .rstat ≠ initCommand alg := by
  refine ⟨by decide, by decide, by decide, by decide, fun alg => ?_⟩
  cases alg <;> decide
theorem witness_DigestIsImmutableWhileFinalized :
    let s := withHost (ready .md5 .finalized) [.command 0x3000000000000000]
    s.phase = .finalized ∧ answers (step s) = true ∧ (stateOf (step s)).phase = .finalized := by decide +kernel

/-- A legal state in the middle of a message. -/
theorem legal_letters : Legal (letters .sha256 1) :=
  ⟨by unfold FillLegal; decide +kernel, fun _ => by decide +kernel, by decide +kernel⟩

theorem witness_StepKeepsLegalStates :
    Legal (withHost (letters .sha256 1) [.command 0x3000000000000000]) ∧
    answers (step (withHost (letters .sha256 1) [.command 0x3000000000000000])) = true :=
  ⟨⟨legal_letters.fill, legal_letters.hash, legal_letters.memory⟩, by decide +kernel⟩
theorem witness_StepKeepsStandingForAMessage :
    (withHost (letters .sha256 1) [.command 0x3000000000000000]).buf.wf ∧
    StandsForMessage (withHost (letters .sha256 1) [.command 0x3000000000000000]) :=
  ⟨legal_letters.memory, .inr ⟨[0x61], .inl ⟨absorbed_a.phase, absorbed_a.len, absorbed_a.fill, absorbed_a.hash,
    absorbed_a.tail⟩⟩⟩
/-- Two states that differ in a byte of BUF above FILL, about to take a FINALIZE. -/
theorem witness_UnspecifiedValuesAreNotObservable :
    let s := withHost (letters .sha256 1) [.command 0x3000000000000000]
    let t := { s with buf := s.buf.write 100 0xff }
    s ≠ t ∧ Legal s ∧ Legal t ∧ Alike s t ∧ answers (step s) = true := by
  have L : Legal (withHost (letters .sha256 1) [.command 0x3000000000000000]) :=
    ⟨legal_letters.fill, legal_letters.hash, legal_letters.memory⟩
  refine ⟨by decide +kernel, L, ⟨L.fill, L.hash, write_wf _ _ _ L.memory⟩, ?_, by decide +kernel⟩
  exact ⟨rfl, rfl, rfl, rfl, rfl, rfl, rfl, rfl, rfl, rfl, fun _ => rfl, fun _ => by decide +kernel⟩
theorem witness_EngineHashesTheMessage :
    payloads [.updateB0 0x61] = some [0x61] ∧ State.reset.buf.wf ∧
    (withHost State.reset (issuing [.initMd5, .updateB0 0x61, .finalize] ++ [.reset])).host =
      issuing (initCommand .md5 :: [.updateB0 0x61] ++ [.finalize]) ++ [.reset] := ⟨by decide, by decide, rfl⟩
theorem witness_SumAnswersTheDigest :
    State.reset.buf.wf ∧
    (withHost State.reset (issuing (sumCommands .md5 [0x61]) ++ [])).host = issuing (sumCommands .md5 [0x61]) ++ [] :=
  ⟨by decide, rfl⟩
theorem witness_BufferReadAfterWrite : Memory.wf [(0, 1), (127, 2)] ∧ (0 : BitVec 7) ≠ 127 := by decide
theorem witness_BufferKeepsItsCanonicalForm :
    Memory.wf [(0, 1), (127, 2)] ∧ ∀ a : BitVec 7, Memory.read [(0, 1)] a = Memory.read (Memory.write [] 0 1) a :=
  ⟨by decide, fun _ => rfl⟩
theorem witness_RotatorAndShifterAsNumbers :
    ((32 : Nat) = 32 ∨ (32 : Nat) = 64) ∧ (⟨31, by decide⟩ : RotAmount 32).val = 32 - (⟨1, by decide⟩ : RotAmount 32).val := by
  decide
theorem witness_bit_indexes : (0 : Nat) < 32 ∧ (31 : Nat) < 32 ∧ (63 : Nat) < 64 := by decide
theorem witness_BlockWordsAreReadInTheByteOrder :
    (15 : Nat) < 16 ∧ (List.replicate 64 (1 : Byte)).length = 64 ∧ (List.replicate 128 (1 : Byte)).length = 128 := by decide
theorem witness_Sha1ScheduleRecurrence : (List.replicate 64 (1 : Byte)).length = 64 ∧ (15 : Nat) < 16 ∧
    (16 : Nat) ≤ 16 ∧ (16 : Nat) ≤ 79 ∧ (79 : Nat) < 80 := by decide
theorem witness_Sha2ScheduleRecurrence : (List.replicate 64 (1 : Byte)).length = 64 ∧
    (List.replicate 128 (1 : Byte)).length = 128 ∧ (16 : Nat) ≤ 63 ∧ (63 : Nat) < 64 ∧ (79 : Nat) < 80 := by decide
/-- An unused word, a used one, and two files that differ in an upper half and in an unused word. -/
theorem witness_CompressionReadsAndWritesItsWords :
    Alg.md5.stateWords ≤ (4 : Fin 8).val ∧ ((3 : Fin 8).val < Alg.md5.stateWords ∧ Alg.md5.wordBits = 32) ∧
    visibleHash .md5 #v[0x100000001, 2, 3, 4, 5, 6, 7, 8] = visibleHash .md5 #v[1, 2, 3, 4, 0, 0, 0, 0] := by decide +kernel

end Sys2Proof.Tests
end

section
/-! SUPPORT and PROOFS. The registers of 10_state.md that every command shares: the STATUS view (R28), LAST_ERR (R26),
ERR_STICKY (R27) and LEN (R23). -/

namespace Sys2Proof.Machine

/-! ## The STATUS word as a number (R28) -/

/-- A field put above a word that lies below it adds its own value at its place. -/
theorem toNat_or_field {w : Word32} {m n k : Nat} {f : BitVec n} (hw : w.toNat = m) (hm : m < 2 ^ k) (hn : k + n ≤ 32) :
    (w ||| f.setWidth 32 <<< k).toNat = m + f.toNat * 2 ^ k := by
  subst hw
  have hf : f.toNat * 2 ^ k < 2 ^ 32 := calc
    f.toNat * 2 ^ k < 2 ^ n * 2 ^ k := Nat.mul_lt_mul_of_pos_right f.isLt (Nat.two_pow_pos k)
    _ = 2 ^ (k + n) := by rw [Nat.mul_comm, Nat.pow_add]
    _ ≤ 2 ^ 32 := Nat.pow_le_pow_right (by decide) hn
  rw [BitVec.toNat_or, BitVec.toNat_shiftLeft, BitVec.toNat_setWidth_of_le (by omega), Nat.shiftLeft_eq,
    Nat.mod_eq_of_lt hf, ← Nat.shiftLeft_eq, Nat.lor_comm, ← Nat.shiftLeft_add_eq_or_of_lt hm, Nat.add_comm]

theorem dlenField_toNat (s : State) :
    (dlenField s).toNat = if s.phase = .unconfigured then 0 else s.alg.digestBytes := by
  have hN : (BitVec.ofNat 7 s.alg.digestBytes).toNat = s.alg.digestBytes := by cases s.alg <;> rfl
  rw [dlenField, apply_ite BitVec.toNat, hN]
  rfl

theorem toNat_ofBool_eq_ite (b : Bool) : (BitVec.ofBool b).toNat = if b then 1 else 0 := by cases b <;> rfl

/-- The fields of STATUS do not overlap, so the word is the sum of the fields at their places. -/
theorem statusWord_toNat (s : State) :
    (statusWord s).toNat = s.phase.code.toNat + s.alg.code.toNat * 2 ^ 4 + s.lastErr.code.toNat * 2 ^ 8 +
      (BitVec.ofBool s.errSticky).toNat * 2 ^ 12 + s.fill.toNat * 2 ^ 16 + (dlenField s).toNat * 2 ^ 24 := by
  have phaseBits : (s.phase.code.setWidth 32).toNat = s.phase.code.toNat := BitVec.toNat_setWidth_of_le (by decide)
  have algBits := toNat_or_field (f := s.alg.code) (k := 4) phaseBits (by omega) (by decide)
  have lastBits := toNat_or_field (f := s.lastErr.code) (k := 8) algBits (by omega) (by decide)
  have stickyBits := toNat_or_field (f := BitVec.ofBool s.errSticky) (k := 12) lastBits (by omega) (by decide)
  have fillBits := toNat_or_field (f := s.fill) (k := 16) stickyBits (by omega) (by decide)
  exact toNat_or_field (f := dlenField s) (k := 24) fillBits (by omega) (by decide)

/-- Settles O29: the status word is the sum of its fields, and each field lies below the place of the next. -/
theorem readStatusAnswersTheFields : Obligations.ReadStatusAnswersTheFields := by
  intro s
  refine ⟨statusWord s, rfl, ?_⟩
  rw [statusWord_toNat, ← dlenField_toNat, ← toNat_ofBool_eq_ite]
  unfold fieldAt
  omega

/-! ## What a command word leaves in the error fields (R26, R27) -/

/-- FINALIZE, READ_DIGEST and READ_STATUS are no INIT. -/
theorem ne_initCommand (alg : Alg) :
    .finalize ≠ initCommand alg ∧ (∀ idx, .rdigIdx idx ≠ initCommand alg) ∧ .rstat ≠ initCommand alg := by
  cases alg <;> simp [initCommand]

/-- The response of a command word and the error fields after it: an error leaves its code in LAST_ERR and sets ERR_STICKY; a
completed command leaves 0 in LAST_ERR, READ_STATUS excepted, and ERR_STICKY as it was, INIT excepted. -/
theorem step_command_error_fields {s t : State} {w : Word64} {rest : List HostMove}
    (hh : s.host = .command w :: rest) (e : step s = .next t) :
    (∃ er, er ≠ .ok ∧ t.responses = s.responses ++ [⟨er, 0⟩] ∧ t.lastErr = er ∧ t.errSticky = true ∧
      decode w ≠ .command .rstat ∧ ∀ alg, decode w ≠ .command (initCommand alg)) ∨
    (∃ d, t.responses = s.responses ++ [⟨.ok, d⟩] ∧
      t.lastErr = (if decode w = .command .rstat then s.lastErr else .ok) ∧
      (∀ alg, decode w = .command (initCommand alg) → t.errSticky = false) ∧
      ((∀ alg, decode w ≠ .command (initCommand alg)) → t.errSticky = s.errSticky)) := by
  rcases step_command_cases s t w rest hh e with ⟨er, her, rfl, hinit, hrstat, -⟩ | ⟨d, hresp, hcase⟩
  · exact .inl ⟨er, her, rfl, rfl, rfl, hrstat, hinit⟩
  · refine .inr ⟨d, hresp, ?_⟩
    rcases hcase with ⟨a, hw, -, rfl⟩ | ⟨i, b, hw, hb, -, -, rfl⟩ | ⟨hw, -, -, rfl⟩ | ⟨x, hw, -, -, -, rfl⟩ | ⟨hw, rfl⟩
    case inl => simp [hw, (ne_initCommand a).2.2.symm]
    case inr.inl =>
      obtain ⟨hinit, -, -, hrstat⟩ := updatePayload_ne hb
      simp [hw, hinit, hrstat]
    all_goals simp [hw, ne_initCommand]

/-- Settles O36: by the error fields after a command word. -/
theorem lastErrHoldsTheLastCode : Obligations.LastErrHoldsTheLastCode := by
  refine ⟨rfl, fun s t w rest hh e => ?_⟩
  rcases step_command_error_fields hh e with ⟨er, -, hresp, hlast, -, hrstat, -⟩ | ⟨d, hresp, hlast, -, -⟩
  · exact ⟨fun h => absurd h hrstat, fun _ => ⟨_, hresp, hlast⟩⟩
  · exact ⟨fun h => by rw [hlast, if_pos h], fun h => ⟨_, hresp, by rw [hlast, if_neg h]⟩⟩

/-- A reset event is taken whole (70_reset_and_hazards.md R281). -/
theorem step_reset {s t : State} {rest : List HostMove} (hh : s.host = .reset :: rest) (e : step s = .next t) :
    t = takeReset { s with host := rest } := by
  obtain ⟨h, -⟩ | ⟨_, h, e'⟩ | ⟨_, _, _, h, -⟩ | ⟨_, _, _, h, -⟩ := step_cases s <;> cases hh.symm.trans h
  cases e'.symm.trans e
  rfl

/-- Settles O37: a reset event clears ERR_STICKY and answers nothing; a command word by the error fields after it. -/
theorem errStickyIsSetByErrorsAndClearedByInit : Obligations.ErrStickyIsSetByErrorsAndClearedByInit := by
  refine ⟨rfl, fun s t m rest hh e => ?_⟩
  intro clears failed
  cases m with
  | reset =>
    have ht := step_reset hh e
    refine ⟨fun ⟨er, rd, _, hresp⟩ => ?_, fun _ => by rw [ht, takeReset_errSticky], fun _ h => absurd (.inl rfl) h⟩
    simp [ht] at hresp
  | command w =>
    have clears_iff : clears ↔ ∃ alg, decode w = .command (initCommand alg) := by simp [clears]
    rcases step_command_error_fields hh e with ⟨er, her, hresp, -, hset, -, hinit⟩ | ⟨d, hresp, -, hclear, hkeep⟩
    · have hfailed : failed := ⟨er, 0, her, hresp⟩
      exact ⟨fun _ => hset, fun h => absurd (clears_iff.1 h) (by simpa using hinit), fun h => absurd hfailed h⟩
    · have hok : ¬ failed := by simp [failed, hresp, eq_comm]
      exact ⟨fun h => absurd h hok, fun h => (clears_iff.1 h).elim hclear,
        fun _ h => hkeep fun alg ha => h (clears_iff.2 ⟨alg, ha⟩)⟩

/-! ## What a command leaves in LEN (R23) -/

theorem updateEngine_len_accepting (bytes : List Byte) (s : State) (h : s.phase.accepting = true) :
    (updateEngine bytes s).len = s.len + BitVec.ofNat 64 bytes.length := by
  simp [updateEngine_accepting bytes s h, absorbBytes_len]

theorem updateEngine_len_not_accepting (bytes : List Byte) (s : State) (h : s.phase.accepting = false) :
    (updateEngine bytes s).len = s.len := by
  rw [updateEngine_not_accepting bytes s h, raise_len]

@[simp] theorem finalizeEngine_len (s : State) : (finalizeEngine s).len = s.len := by
  cases h : s.phase.accepting
  · rw [finalizeEngine_not_accepting s h, raise_len]
  · simp [finalizeEngine_accepting s h]

@[simp] theorem readDigest_len (idx : Nat) (s : State) : (readDigest idx s).len = s.len := by
  rcases readDigest_cases idx s with ⟨-, e⟩ | ⟨-, -, e⟩ | ⟨-, -, e⟩ <;> simp [e]

/-- Settles O39: by kind of command, from what each engine operation leaves in LEN. -/
theorem lenCountsTheAbsorbedBytes : Obligations.LenCountsTheAbsorbedBytes := by
  refine ⟨rfl, fun i s t e => ?_⟩
  rcases exec_cases i s with ⟨a, rfl, hnone, e'⟩ | ⟨b, hb, hinit, e'⟩ | ⟨rfl, e'⟩ | ⟨idx, rfl, e'⟩ | ⟨rfl, e'⟩ <;>
    (rw [e'] at e; cases e)
  case inl => simp [hnone]
  case inr.inl =>
    refine ⟨fun alg h => absurd h (hinit alg), fun bytes hbytes hacc => ?_, fun _ hcase => ?_⟩
    · cases hb.symm.trans hbytes
      rw [updateEngine_len_accepting b s hacc, BitVec.toNat_add, BitVec.toNat_ofNat, Nat.add_mod_mod]
    · exact updateEngine_len_not_accepting b s (hcase.resolve_left (by simp [hb]))
  all_goals simp [updatePayload, ne_initCommand]

end Sys2Proof.Machine
end

section
/-! SUPPORT and PROOFS. The memory rules of 20_memory.md: the reads have no side effect on the hashing state and may be
repeated (R50). -/

namespace Sys2Proof.Machine

/-! ## READ_DIGEST, an equation for each outcome (R88) -/

theorem readDigest_not_finalized {idx : Nat} {s : State} (h : s.phase ≠ .finalized) :
    readDigest idx s = raise .invalidState s := if_neg h

theorem readDigest_beyond_digest {idx : Nat} {s : State} (h : s.phase = .finalized) (hidx : s.alg.digestBytes ≤ idx) :
    readDigest idx s = raise .indexRange s := (if_pos h).trans (if_neg hidx.not_gt)

theorem readDigest_within_digest {idx : Nat} {s : State} (h : s.phase = .finalized) (hidx : idx < s.alg.digestBytes) :
    readDigest idx s = complete ((digestByte s.alg s.h idx).setWidth 32) s := (if_pos h).trans (if_pos hidx)

/-! ## What a read writes, and what it answers when repeated (R50) -/

/-- Besides its response, READ_DIGEST writes the two error fields only. -/
theorem readDigest_frame (idx : Nat) (s : State) :
    { readDigest idx s with lastErr := s.lastErr, errSticky := s.errSticky, responses := s.responses } = s := by
  rcases readDigest_cases idx s with ⟨-, e⟩ | ⟨-, -, e⟩ | ⟨-, -, e⟩ <;> rw [e] <;> rfl

/-- The response of READ_DIGEST is chosen by PHASE, ALG and H alone, and a read keeps all three: a repeated read takes the
branch of the first. -/
theorem readDigest_responses_twice (idx : Nat) (s : State) :
    ∃ r, (readDigest idx s).responses = s.responses ++ [r] ∧
      (readDigest idx (readDigest idx s)).responses = s.responses ++ [r, r] ∧
      (r.code = .ok → (readDigest idx s).errSticky = s.errSticky) := by
  rcases readDigest_cases idx s with ⟨h, e⟩ | ⟨h, hidx, e⟩ | ⟨h, hidx, e⟩ <;> rw [e]
  · have again : readDigest idx (raise .invalidState s) = raise .invalidState (raise .invalidState s) :=
      readDigest_not_finalized h
    exact ⟨⟨.invalidState, 0⟩, by simp [again]⟩
  · have again : readDigest idx (raise .indexRange s) = raise .indexRange (raise .indexRange s) :=
      readDigest_beyond_digest h hidx
    exact ⟨⟨.indexRange, 0⟩, by simp [again]⟩
  · have again (d : Word32) : readDigest idx (complete d s) =
        complete ((digestByte s.alg s.h idx).setWidth 32) (complete d s) :=
      readDigest_within_digest h hidx
    exact ⟨⟨.ok, _⟩, rfl, by simp [again], fun _ => rfl⟩

/-- STATUS shows no response, so a repeated READ_STATUS answers the word of the first. -/
theorem readStatus_responses_twice (s : State) :
    (readStatus (readStatus s)).responses = s.responses ++ [⟨.ok, statusWord s⟩, ⟨.ok, statusWord s⟩] := by
  have again : statusWord (readStatus s) = statusWord s := rfl
  simp [again]

/-- Settles O30: by the command, from what each read answers twice and what it leaves unchanged. -/
theorem readsAreIdempotent : Obligations.ReadsAreIdempotent := by
  rintro i s t u (rfl | ⟨idx, rfl⟩) ht hu
  case inl =>
    cases ht
    cases hu
    exact ⟨_, rfl, readStatus_responses_twice s, rfl, fun _ => ⟨rfl, rfl⟩, fun _ => rfl⟩
  case inr =>
    cases ht
    cases hu
    obtain ⟨r, once, twice, sticky⟩ := readDigest_responses_twice idx.toNat s
    exact ⟨r, once, twice, readDigest_frame idx.toNat s, nofun, sticky⟩

end Sys2Proof.Machine
end

section
/-! SUPPORT and PROOFS. The command word and its response, 30_encoding.md: the decoder by the fields as numbers (R63, R66), and
one response for each command word (R71). -/

namespace Sys2Proof.Machine

/-! ## The fields of a command word as numbers (R61) -/

theorem toNat_extractLsb'_eq_fieldAt (w : Word64) (lo n : Nat) : (w.extractLsb' lo n).toNat = fieldAt w.toNat lo n := by
  rw [BitVec.extractLsb'_toNat, Nat.shiftRight_eq_div_pow, fieldAt]

theorem opcField_toNat (w : Word64) : (opcField w).toNat = fieldAt w.toNat 60 4 := toNat_extractLsb'_eq_fieldAt w 60 4
theorem rsv1Field_toNat (w : Word64) : (rsv1Field w).toNat = fieldAt w.toNat 56 4 := toNat_extractLsb'_eq_fieldAt w 56 4
theorem argField_toNat (w : Word64) : (argField w).toNat = fieldAt w.toNat 48 8 := toNat_extractLsb'_eq_fieldAt w 48 8
theorem rsv2Field_toNat (w : Word64) : (rsv2Field w).toNat = fieldAt w.toNat 32 16 := toNat_extractLsb'_eq_fieldAt w 32 16
theorem dataField_toNat (w : Word64) : (dataField w).toNat = fieldAt w.toNat 0 32 := toNat_extractLsb'_eq_fieldAt w 0 32

/-! ## The decoder, an equation for each opcode (R62, R63) -/

theorem decode_reserved {w : Word64} (hrsv : rsv1Field w ≠ 0 ∨ rsv2Field w ≠ 0) : decode w = .illegal .reservedField :=
  if_pos hrsv

section
variable {w : Word64} (hrsv : ¬(rsv1Field w ≠ 0 ∨ rsv2Field w ≠ 0))
include hrsv

theorem decode_opc_init (hopc : (opcField w).toNat = 1) : decode w = decodeInit (argField w) (dataField w) := by
  simp only [decode, if_neg hrsv, hopc]

theorem decode_opc_update (hopc : (opcField w).toNat = 2) : decode w = decodeUpdate (argField w) (dataField w) := by
  simp only [decode, if_neg hrsv, hopc]

theorem decode_opc_finalize (hopc : (opcField w).toNat = 3) :
    decode w = decodeNoOperand (argField w) (dataField w) .finalize := by
  simp only [decode, if_neg hrsv, hopc]

theorem decode_opc_readDigest (hopc : (opcField w).toNat = 4) :
    decode w = decodeReadDigest (argField w) (dataField w) := by
  simp only [decode, if_neg hrsv, hopc]

theorem decode_opc_readStatus (hopc : (opcField w).toNat = 5) :
    decode w = decodeNoOperand (argField w) (dataField w) .rstat := by
  simp only [decode, if_neg hrsv, hopc]

theorem decode_opc_reserved (hopc : (opcField w).toNat = 0 ∨ 6 ≤ (opcField w).toNat) :
    decode w = .illegal .reservedOpcode := by
  rw [decode, if_neg hrsv]
  split
  case h_6 => rfl
  all_goals omega

end

/-! ## What ARG and DATA select under each opcode (R61, R64, R65, R67) -/

theorem withZeroData_zero {data : Word32} (hdata : data.toNat = 0) (i : Instr) : withZeroData data i = .command i :=
  if_pos (BitVec.eq_of_toNat_eq hdata)

theorem withZeroData_ne_zero {data : Word32} (hdata : data.toNat ≠ 0) (i : Instr) :
    withZeroData data i = .illegal .dataNotZero :=
  if_neg fun h => hdata (congrArg BitVec.toNat h)

/-- INIT takes the algorithm whose code ARG is. -/
theorem decodeInit_code {arg : BitVec 8} {alg : Alg} (harg : alg.code.toNat = arg.toNat) (data : Word32) :
    decodeInit arg data = withZeroData data (initCommand alg) := by
  rw [decodeInit, ← harg]
  cases alg <;> rfl

theorem exists_alg_code {n : Nat} (hn : n ≤ 6) : ∃ alg : Alg, alg.code.toNat = n := by
  match n, hn with
  | 0, _ => exact ⟨.md4, rfl⟩
  | 1, _ => exact ⟨.md5, rfl⟩
  | 2, _ => exact ⟨.sha1, rfl⟩
  | 3, _ => exact ⟨.sha224, rfl⟩
  | 4, _ => exact ⟨.sha256, rfl⟩
  | 5, _ => exact ⟨.sha384, rfl⟩
  | 6, _ => exact ⟨.sha512, rfl⟩

theorem decodeInit_argOutOfRange {arg : BitVec 8} (harg : ¬arg.toNat ≤ 6) (data : Word32) :
    decodeInit arg data = .illegal .argOutOfRange := by
  unfold decodeInit
  split
  case h_8 => rfl
  all_goals omega

theorem decodeInit_spec (arg : BitVec 8) (data : Word32) :
    if arg.toNat ≤ 6 ∧ data.toNat = 0 then
      ∃ alg : Alg, alg.code.toNat = arg.toNat ∧ decodeInit arg data = .command (initCommand alg)
    else ∃ why, decodeInit arg data = .illegal why := by
  by_cases harg : arg.toNat ≤ 6
  · obtain ⟨alg, hcode⟩ := exists_alg_code harg
    rw [decodeInit_code hcode]
    by_cases hdata : data.toNat = 0
    · rw [if_pos ⟨harg, hdata⟩]
      exact ⟨alg, hcode, withZeroData_zero hdata _⟩
    · rw [if_neg fun h => hdata h.2]
      exact ⟨_, withZeroData_ne_zero hdata _⟩
  · rw [if_neg fun h => harg h.1]
    exact ⟨_, decodeInit_argOutOfRange harg data⟩

theorem decodeUpdate_spec (arg : BitVec 8) (data : Word32) :
    if arg.toNat ≤ 4 then
      ∃ i, [Instr.update data, .updateB0 data, .updateB0B1 data, .updateB0B1B2 data, .updateB0B1B2B3 data][arg.toNat]? =
        some i ∧ decodeUpdate arg data = .command i
    else ∃ why, decodeUpdate arg data = .illegal why := by
  split_ifs with harg
  · have hnb : arg.toNat = 0 ∨ arg.toNat = 1 ∨ arg.toNat = 2 ∨ arg.toNat = 3 ∨ arg.toNat = 4 := by omega
    rcases hnb with hnb | hnb | hnb | hnb | hnb <;> simp [decodeUpdate, hnb]
  · unfold decodeUpdate
    split
    case h_6 => exact ⟨_, rfl⟩
    all_goals omega

theorem decodeNoOperand_spec (arg : BitVec 8) (data : Word32) (i : Instr) :
    if arg.toNat = 0 ∧ data.toNat = 0 then decodeNoOperand arg data i = .command i
    else ∃ why, decodeNoOperand arg data i = .illegal why := by
  unfold decodeNoOperand
  split_ifs with h harg harg
  · exact withZeroData_zero h.2 i
  · exact absurd (BitVec.eq_of_toNat_eq h.1) harg
  · exact ⟨_, withZeroData_ne_zero (fun hdata => h ⟨congrArg BitVec.toNat harg, hdata⟩) i⟩
  · exact ⟨_, rfl⟩

theorem decodeReadDigest_spec (arg : BitVec 8) (data : Word32) :
    if arg.toNat ≤ 63 ∧ data.toNat = 0 then decodeReadDigest arg data = .command (.rdigIdx arg)
    else ∃ why, decodeReadDigest arg data = .illegal why := by
  unfold decodeReadDigest
  split_ifs with h harg harg
  · exact withZeroData_zero h.2 _
  · omega
  · exact ⟨_, withZeroData_ne_zero (fun hdata => h ⟨by omega, hdata⟩) _⟩
  · exact ⟨_, rfl⟩

/-- Settles O5: by the reserved fields, then by the opcode, from what ARG and DATA select under each. -/
theorem decodeFollowsTheFieldRules : Obligations.DecodeFollowsTheFieldRules := by
  intro w
  simp only [← opcField_toNat, ← rsv1Field_toNat, ← argField_toNat, ← rsv2Field_toNat, ← dataField_toNat,
    BitVec.ofNat_toNat, BitVec.setWidth_eq]
  have reserved_iff : ((rsv1Field w).toNat ≠ 0 ∨ (rsv2Field w).toNat ≠ 0) ↔ (rsv1Field w ≠ 0 ∨ rsv2Field w ≠ 0) := by
    simp [BitVec.toNat_eq]
  by_cases hrsv : rsv1Field w ≠ 0 ∨ rsv2Field w ≠ 0
  · rw [if_pos (reserved_iff.2 hrsv)]
    exact ⟨_, decode_reserved hrsv⟩
  rw [if_neg (reserved_iff.not.2 hrsv)]
  by_cases h1 : (opcField w).toNat = 1
  · simpa [h1, decode_opc_init hrsv h1] using decodeInit_spec (argField w) (dataField w)
  by_cases h2 : (opcField w).toNat = 2
  · simpa [h2, decode_opc_update hrsv h2] using decodeUpdate_spec (argField w) (dataField w)
  by_cases h3 : (opcField w).toNat = 3
  · simpa [h3, decode_opc_finalize hrsv h3] using decodeNoOperand_spec (argField w) (dataField w) .finalize
  by_cases h4 : (opcField w).toNat = 4
  · simpa [h4, decode_opc_readDigest hrsv h4] using decodeReadDigest_spec (argField w) (dataField w)
  by_cases h5 : (opcField w).toNat = 5
  · simpa [h5, decode_opc_readStatus hrsv h5] using decodeNoOperand_spec (argField w) (dataField w) .rstat
  simp [h1, h2, h3, h4, h5, decode_opc_reserved hrsv (by omega)]

/-! ## One response for each command word (R71) -/

theorem exec_eq_next (i : Instr) (s : State) : ∃ t, exec i s = .next t := by
  rcases exec_cases i s with ⟨_, -, -, e⟩ | ⟨_, -, -, e⟩ | ⟨-, e⟩ | ⟨_, -, e⟩ | ⟨-, e⟩ <;> exact ⟨_, e⟩

theorem step_eq_next (s : State) : ∃ t, step s = .next t := by
  rcases step_cases s with ⟨-, e⟩ | ⟨_, -, e⟩ | ⟨_, _, i, -, -, e⟩ | ⟨_, _, _, -, -, e⟩
  case inr.inr.inl => exact e ▸ exec_eq_next i _
  all_goals exact ⟨_, e⟩

/-- Settles O35: by what the step of a command word can do. -/
theorem everyCommandRespondsOnce : Obligations.EveryCommandRespondsOnce := by
  refine ⟨by decide, fun s w rest hh => ?_⟩
  obtain ⟨t, e⟩ := step_eq_next s
  rcases step_command_cases s t w rest hh e with ⟨er, her, rfl, -, hrstat, -⟩ | ⟨d, hresp, hcase⟩
  · exact ⟨_, ⟨er, 0⟩, e, rfl, fun _ _ hok => absurd hok her, fun h => absurd h hrstat, fun h => absurd rfl h⟩
  · refine ⟨t, ⟨.ok, d⟩, e, hresp, ?_⟩
    rcases hcase with ⟨a, hw, rfl, -⟩ | ⟨i, b, hw, hb, -, rfl, -⟩ | ⟨hw, -, rfl, -⟩ | ⟨x, hw, -, -, rfl, -⟩ | ⟨hw, rfl⟩
    case inl => simp [hw, eq_comm, ne_initCommand]
    case inr.inl =>
      obtain ⟨-, -, hrdig, hrstat⟩ := updatePayload_ne hb
      simp [hw, hrdig, hrstat]
    case inr.inr.inl => simp [hw]
    case inr.inr.inr.inl =>
      refine ⟨fun idx h _ => ?_, by simp [hw], fun _ => ⟨rfl, .inr ⟨x, hw⟩⟩⟩
      cases hw.symm.trans h
      exact BitVec.toNat_setWidth_of_le (by decide)
    case inr.inr.inr.inr =>
      have answered : [⟨.ok, statusWord s⟩] = [(⟨.ok, d⟩ : Response)] := List.append_cancel_left hresp
      cases answered
      exact ⟨by simp [hw], fun _ => rfl, fun _ => ⟨rfl, .inl hw⟩⟩

end Sys2Proof.Machine
end

section
/-! SUPPORT and PROOFS. The commands of the engine, 40_engine_commands.md: INIT (R81, R91), UPDATE and ABSORB (R82 to R84),
the phase table (R103) and the hash of a message (R99). -/

namespace Sys2Proof.Machine

/-! ## INIT (R81, R91) -/

/-- The words INIT loads, against the printed vectors: a closed fact for each algorithm. -/
theorem initialHash_toNat (alg : Alg) : (initialHash alg).toList.map BitVec.toNat = specIV alg := by
  cases alg <;> decide

/-- Settles O13: INIT loads the algorithm's initial vector. -/
theorem initLoadsThePrintedInitialVectors : Obligations.InitLoadsThePrintedInitialVectors :=
  fun alg s => ⟨initEngine alg s, exec_initCommand alg s, rfl, initialHash_toNat alg⟩

/-! ## ABSORB, the fields it writes (R84) -/

section
variable {s : State} (b : Byte) (hf : s.fill.toNat < s.alg.blockSize) (hw : s.buf.wf)

include hf in
theorem absorb_fill_eq_ite :
    (absorb s b).fill.toNat = if s.fill.toNat + 1 = s.alg.blockSize then 0 else s.fill.toNat + 1 := by
  rw [absorb_fill s b hf]
  split_ifs with hfull
  · rw [hfull, Nat.mod_self]
  · exact Nat.mod_eq_of_lt (by omega)

include hw in
/-- The compressed block is what stood below FILL, followed by the byte. -/
theorem absorb_h_eq_ite :
    (absorb s b).h = if s.fill.toNat + 1 = s.alg.blockSize
      then compressHash s.alg s.h (s.buf.readBytes 0 s.fill.toNat ++ [b]) else s.h := by
  split_ifs with hfull
  · rw [absorb_full s b hfull, ← readBytes_write_end s.buf s.fill b hw, hfull]
  · rw [absorb_inside s b hfull]

end

/-- Settles O15: field by field. -/
theorem absorbStoresCountsAndCompresses : Obligations.AbsorbStoresCountsAndCompresses := by
  intro s b hf hw
  refine ⟨?_, fun a => ?_, absorb_fill_eq_ite b hf, absorb_h_eq_ite b hw⟩
  · rw [absorb_len, BitVec.toNat_add]
    rfl
  · rw [absorb_buf, read_write s.buf s.fill a b hw]

/-! ## UPDATE (R82, R83) -/

/-- Byte k of DATA as a number (R82). -/
def dataByte (data : Word32) (k : Nat) : Byte := BitVec.ofNat 8 (fieldAt data.toNat (8 * k) 8)

theorem extractLsb'_eq_dataByte (data : Word32) (k : Nat) : data.extractLsb' (8 * k) 8 = dataByte data k := by
  refine BitVec.eq_of_toNat_eq ?_
  rw [BitVec.extractLsb'_toNat, dataByte, BitVec.toNat_ofNat, fieldAt, Nat.mod_mod, Nat.shiftRight_eq_div_pow]

theorem payload_eq_take (nb : Nat) (data : Word32) :
    payload nb data = [dataByte data 0, dataByte data 1, dataByte data 2, dataByte data 3].take nb := by
  simp only [← extractLsb'_eq_dataByte]
  rfl

theorem exec_update_accepting {i : Instr} {bytes : List Byte} (hi : updatePayload i = some bytes) {s : State}
    (h : s.phase.accepting = true) :
    exec i s = .next { absorbBytes s bytes with
      phase := .accumulating, lastErr := .ok, responses := s.responses ++ [⟨.ok, 0⟩] } := by
  rw [exec_update hi, updateEngine_accepting bytes s h, ← absorbBytes_responses s bytes]
  rfl

/-- Settles O14: each form absorbs as many bytes of DATA as it has. -/
theorem updateAbsorbsItsPayload : Obligations.UpdateAbsorbsItsPayload := by
  intro s data hphase
  have absorbs (nb : Nat) {i : Instr} (hi : updatePayload i = some (payload nb data)) :=
    exec_update_accepting (payload_eq_take nb data ▸ hi) ((accepting_iff s.phase).2 hphase)
  exact ⟨absorbs 0 rfl, absorbs 1 rfl, absorbs 2 rfl, absorbs 3 rfl, absorbs 4 rfl⟩

/-! ## The phase and the response after a command (R103) -/

/-- A cell of the table of R103: the response code of a command, and the phase it leaves. -/
def Answers (s t : State) (code : RespCode) (p : Phase) : Prop :=
  (∃ rd, t.responses = s.responses ++ [⟨code, rd⟩]) ∧ t.phase = p

theorem raise_answers (e : RespCode) (s : State) : Answers s (raise e s) e s.phase := ⟨⟨0, rfl⟩, rfl⟩

theorem updateEngine_answers (bytes : List Byte) (s : State) :
    if s.phase.accepting then Answers s (updateEngine bytes s) .ok .accumulating
    else Answers s (updateEngine bytes s) .invalidState s.phase := by
  split_ifs with h
  · rw [updateEngine_accepting bytes s h]
    exact ⟨⟨0, by simp⟩, rfl⟩
  · rw [updateEngine_not_accepting bytes s (by simpa using h)]
    exact raise_answers _ s

theorem finalizeEngine_answers (s : State) :
    if s.phase.accepting then Answers s (finalizeEngine s) .ok .finalized
    else Answers s (finalizeEngine s) .invalidState s.phase := by
  split_ifs with h
  · rw [finalizeEngine_accepting s h]
    exact ⟨⟨0, by simp⟩, rfl⟩
  · rw [finalizeEngine_not_accepting s (by simpa using h)]
    exact raise_answers _ s

/-- A rule that asks for PHASE ∈ {1, 2} fixes the four cells of its row. -/
theorem answers_by_phase_of_accepting {s t : State} {p : Phase}
    (h : if s.phase.accepting then Answers s t .ok p else Answers s t .invalidState s.phase) :
    (s.phase = .unconfigured → Answers s t .invalidState .unconfigured) ∧ (s.phase = .fresh → Answers s t .ok p) ∧
    (s.phase = .accumulating → Answers s t .ok p) ∧ (s.phase = .finalized → Answers s t .invalidState .finalized) := by
  refine ⟨fun hp => ?_, fun hp => ?_, fun hp => ?_, fun hp => ?_⟩ <;> rw [hp] at h <;> exact h

theorem readDigest_answers (idx : Nat) (s : State) :
    (s.phase ≠ .finalized → Answers s (readDigest idx s) .invalidState s.phase) ∧
    (s.phase = .finalized →
      Answers s (readDigest idx s) .ok .finalized ∨ Answers s (readDigest idx s) .indexRange .finalized) := by
  refine ⟨fun h => ?_, fun h => ?_⟩
  · rw [readDigest_not_finalized h]
    exact raise_answers _ s
  · rcases Nat.lt_or_ge idx s.alg.digestBytes with hidx | hidx
    · rw [readDigest_within_digest h hidx]
      exact .inl ⟨⟨_, rfl⟩, h⟩
    · rw [readDigest_beyond_digest h hidx]
      exact .inr (h ▸ raise_answers _ s)

theorem step_illegal {s : State} {w : Word64} {rest : List HostMove} (hh : s.host = .command w :: rest)
    (hw : ∀ i, decode w ≠ .command i) : step s = .next (raise .illegalCommand { s with host := rest }) := by
  obtain ⟨h, -⟩ | ⟨_, h, -⟩ | ⟨_, _, i, h, hd, -⟩ | ⟨_, _, _, h, -, e⟩ := step_cases s <;> cases hh.symm.trans h
  · exact absurd hd (hw i)
  · exact e

/-- Settles O32: row by row. -/
theorem phaseTransitionTable : Obligations.PhaseTransitionTable := by
  refine ⟨fun s t i _ e => ⟨fun alg hi => ?_, fun bytes hi => ?_, fun hi => ?_, fun idx hi => ?_, fun hi => ?_⟩,
    fun s w rest hh hw => ⟨_, step_illegal hh hw, rfl, rfl⟩⟩
  · subst hi
    cases (exec_initCommand alg s).symm.trans e
    exact ⟨⟨0, rfl⟩, rfl⟩
  · cases (exec_update hi s).symm.trans e
    exact answers_by_phase_of_accepting (updateEngine_answers bytes s)
  · subst hi
    cases e
    exact answers_by_phase_of_accepting (finalizeEngine_answers s)
  · subst hi
    cases e
    exact readDigest_answers idx.toNat s
  · subst hi
    cases e
    exact ⟨⟨_, rfl⟩, rfl⟩

/-! ## Whole blocks of a byte sequence and what is left of it (R99) -/

/-- The bytes after the last whole block of a sequence: what BUF holds of a message (20_memory.md R41). -/
def partialBlock (alg : Alg) (msg : List Byte) : List Byte := msg.drop (msg.length / alg.blockSize * alg.blockSize)

theorem partialBlock_length (alg : Alg) (msg : List Byte) :
    (partialBlock alg msg).length = msg.length % alg.blockSize := by
  rw [partialBlock, List.length_drop, Nat.mod_eq_sub_div_mul]

@[simp] theorem hashWholeBlocks_nil (alg : Alg) : hashWholeBlocks alg [] = initialHash alg := by
  simp [hashWholeBlocks, compressBlocks]

section
variable {alg : Alg} {msg bytes : List Byte}

theorem drop_whole_blocks_append :
    (msg ++ bytes).drop (msg.length / alg.blockSize * alg.blockSize) = partialBlock alg msg ++ bytes :=
  List.drop_append_of_le_length (Nat.div_mul_le_self _ _)

theorem compressBlocks_whole_blocks_append :
    compressBlocks alg (msg.length / alg.blockSize) (initialHash alg) (msg ++ bytes) = hashWholeBlocks alg msg :=
  compressBlocks_append alg _ _ msg bytes (Nat.div_mul_le_self _ _)

section
variable (h : msg.length % alg.blockSize + bytes.length < alg.blockSize)
include h

theorem blocks_append_inside : (msg ++ bytes).length / alg.blockSize = msg.length / alg.blockSize := by
  have hdiv := Nat.div_add_mod' msg.length alg.blockSize
  rw [List.length_append]
  refine Nat.div_eq_of_lt_le (by omega) ?_
  rw [Nat.succ_mul]
  omega

theorem hashWholeBlocks_append_inside : hashWholeBlocks alg (msg ++ bytes) = hashWholeBlocks alg msg := by
  rw [hashWholeBlocks, blocks_append_inside h, compressBlocks_whole_blocks_append]

theorem partialBlock_append_inside : partialBlock alg (msg ++ bytes) = partialBlock alg msg ++ bytes := by
  rw [partialBlock, blocks_append_inside h, drop_whole_blocks_append]

end

section
variable (h : msg.length % alg.blockSize + bytes.length = alg.blockSize)
include h

theorem length_append_filling :
    (msg ++ bytes).length = (msg.length / alg.blockSize + 1) * alg.blockSize := by
  have hdiv := Nat.div_add_mod' msg.length alg.blockSize
  rw [List.length_append, Nat.succ_mul]
  omega

theorem hashWholeBlocks_append_filling :
    hashWholeBlocks alg (msg ++ bytes) =
      compressHash alg (hashWholeBlocks alg msg) (partialBlock alg msg ++ bytes) := by
  have hlen : (partialBlock alg msg ++ bytes).length ≤ alg.blockSize := by
    rw [List.length_append, partialBlock_length, h]
  rw [hashWholeBlocks, length_append_filling h, Nat.mul_div_cancel _ (blockSize_pos alg), compressBlocks_succ,
    compressBlocks_whole_blocks_append, drop_whole_blocks_append, List.take_of_length_le hlen]

theorem partialBlock_append_filling : partialBlock alg (msg ++ bytes) = [] := by
  rw [← List.length_eq_zero_iff, partialBlock_length, length_append_filling h, Nat.mul_mod_left]

end
end

/-! ## ABSORB and UPDATE on the message taken so far (R83, R84) -/

theorem Absorbed.fill_lt {s : State} {msg : List Byte} (h : Absorbed s msg) : s.fill.toNat < s.alg.blockSize :=
  h.fill ▸ Nat.mod_lt _ (blockSize_pos s.alg)

theorem absorb_absorbed {s : State} {msg : List Byte} (b : Byte) (hw : s.buf.wf) (h : Absorbed s msg) :
    Absorbed (absorb s b) (msg ++ [b]) := by
  have hfill : (absorb s b).fill.toNat = (msg ++ [b]).length % s.alg.blockSize := by
    rw [absorb_fill s b h.fill_lt, h.fill, List.length_append, Nat.mod_add_mod]
    rfl
  have hlen : (absorb s b).len = BitVec.ofNat 64 (msg ++ [b]).length := by
    rw [absorb_len, h.len, List.length_append, BitVec.ofNat_add]
    rfl
  have htail : s.buf.readBytes 0 s.fill.toNat = partialBlock s.alg msg := h.tail
  suffices hblock : (absorb s b).h = hashWholeBlocks s.alg (msg ++ [b]) ∧
      (absorb s b).buf.readBytes 0 (absorb s b).fill.toNat = partialBlock s.alg (msg ++ [b]) by
    obtain ⟨hhash, htail'⟩ := hblock
    refine ⟨?_, hlen, ?_, ?_, ?_⟩
    · rw [absorb_phase]; exact h.phase
    · rw [absorb_alg]; exact hfill
    · rw [absorb_alg]; exact hhash
    · rw [absorb_alg]; exact htail'
  rw [absorb_h_eq_ite b hw, absorb_fill_eq_ite b h.fill_lt, absorb_buf]
  split_ifs with hfull
  · have hb : msg.length % s.alg.blockSize + [b].length = s.alg.blockSize := h.fill ▸ hfull
    rw [htail, h.hash, hashWholeBlocks_append_filling hb, partialBlock_append_filling hb]
    exact ⟨rfl, rfl⟩
  · have hb : msg.length % s.alg.blockSize + [b].length < s.alg.blockSize :=
      h.fill ▸ lt_of_le_of_ne h.fill_lt hfull
    rw [readBytes_write_end s.buf s.fill b hw, htail, hashWholeBlocks_append_inside hb, partialBlock_append_inside hb]
    exact ⟨h.hash, rfl⟩

theorem absorbBytes_absorbed (bytes : List Byte) : ∀ {s : State} {msg : List Byte}, s.buf.wf → Absorbed s msg →
    (absorbBytes s bytes).buf.wf ∧ Absorbed (absorbBytes s bytes) (msg ++ bytes) := by
  induction bytes with
  | nil => exact fun hw h => ⟨hw, by rwa [List.append_nil]⟩
  | cons b bytes ih =>
    intro s msg hw h
    rw [absorbBytes_cons, List.append_cons]
    exact ih (absorb_wf s b hw) (absorb_absorbed b hw h)

theorem initEngine_absorbed (alg : Alg) (s : State) : Absorbed (initEngine alg s) [] :=
  ⟨rfl, rfl, (Nat.zero_mod _).symm, (hashWholeBlocks_nil alg).symm, List.drop_nil.symm⟩

@[simp] theorem updateEngine_alg (bytes : List Byte) (s : State) : (updateEngine bytes s).alg = s.alg := by
  cases h : s.phase.accepting
  · rw [updateEngine_not_accepting bytes s h, raise_alg]
  · simp [updateEngine_accepting bytes s h]

theorem updateEngine_absorbed (bytes : List Byte) {s : State} {msg : List Byte} (hw : s.buf.wf) (h : Absorbed s msg) :
    (updateEngine bytes s).buf.wf ∧ Absorbed (updateEngine bytes s) (msg ++ bytes) := by
  obtain ⟨hw', h'⟩ := absorbBytes_absorbed bytes hw h
  rw [updateEngine_accepting bytes s h.phase]
  exact ⟨hw', rfl, h'.len, h'.fill, h'.hash, h'.tail⟩

/-! ## FINALIZE compresses the blocks of the padded message (R92 to R99) -/

/-- The zero bytes of R99: up to the length field of the block the message ends in, or of the block after it. -/
theorem padZeros_eq_ite (p : PadLimit128) (alg : Alg) (L : Nat) :
    padZeros p alg L = if L % alg.blockSize + 1 ≤ padLimitOf p alg then alg.blockSize - 8 - (L % alg.blockSize + 1)
      else (alg.blockSize - (L % alg.blockSize + 1)) + (alg.blockSize - 8) := by
  have hlim := padLimitOf_le p alg
  unfold padZeros
  rcases blockSize_cases alg with hbs | hbs <;> rw [hbs] at hlim ⊢ <;> split_ifs <;> omega

section
variable {p : PadLimit128} {alg : Alg} {msg : List Byte}

theorem messageHash_one_block (h : msg.length % alg.blockSize + 1 ≤ padLimitOf p alg) :
    messageHash p alg msg = compressHash alg (hashWholeBlocks alg msg)
      (partialBlock alg msg ++ [0x80] ++ List.replicate (alg.blockSize - 8 - (msg.length % alg.blockSize + 1)) 0 ++
        lengthField alg (BitVec.ofNat 64 msg.length)) := by
  have hlim := padLimitOf_le p alg
  rw [messageHash, paddedMessage, padZeros_eq_ite, if_pos h]
  simp only [List.append_assoc]
  refine hashWholeBlocks_append_filling ?_
  simp only [List.length_append, List.length_replicate, List.length_singleton, lengthField_length]
  omega

theorem messageHash_two_blocks (h : ¬msg.length % alg.blockSize + 1 ≤ padLimitOf p alg) :
    messageHash p alg msg = compressHash alg
      (compressHash alg (hashWholeBlocks alg msg)
        (partialBlock alg msg ++ [0x80] ++ List.replicate (alg.blockSize - (msg.length % alg.blockSize + 1)) 0))
      (List.replicate (alg.blockSize - 8) 0 ++ lengthField alg (BitVec.ofNat 64 msg.length)) := by
  have hmod := Nat.mod_lt msg.length (blockSize_pos alg)
  have hfirst : msg.length % alg.blockSize +
      ([0x80] ++ List.replicate (alg.blockSize - (msg.length % alg.blockSize + 1)) (0 : Byte)).length = alg.blockSize := by
    simp only [List.length_append, List.length_replicate, List.length_singleton]
    omega
  have hlast : (msg ++ ([0x80] ++ List.replicate (alg.blockSize - (msg.length % alg.blockSize + 1)) (0 : Byte))).length %
        alg.blockSize + (List.replicate (alg.blockSize - 8) (0 : Byte) ++ lengthField alg (BitVec.ofNat 64 msg.length)).length =
      alg.blockSize := by
    rw [length_append_filling hfirst, Nat.mul_mod_left]
    simp only [List.length_append, List.length_replicate, lengthField_length]
    have := blockSize_cases alg
    omega
  have hblocks := hashWholeBlocks_append_filling hlast
  rw [partialBlock_append_filling hfirst, hashWholeBlocks_append_filling hfirst] at hblocks
  rw [messageHash, paddedMessage, padZeros_eq_ite, if_neg h, List.replicate_add]
  simpa only [List.append_assoc, List.nil_append] using hblocks

end

theorem padAndFinish_messageHash {s : State} {msg : List Byte} (hw : s.buf.wf) (h : Absorbed s msg) :
    (padAndFinish s).h = messageHash s.padLimit128 s.alg msg := by
  obtain ⟨-, hhash, -⟩ := padAndFinish_spec s h.fill_lt hw
  have htail : s.buf.readBytes 0 s.fill.toNat = partialBlock s.alg msg := h.tail
  rw [hhash, htail, h.len, h.hash, h.fill]
  by_cases hlim : msg.length % s.alg.blockSize + 1 ≤ padLimit s
  · simp only [if_pos hlim, messageHash_one_block (p := s.padLimit128) hlim]
  · simp only [if_neg hlim, messageHash_two_blocks (p := s.padLimit128) hlim]

@[simp] theorem finalizeEngine_alg (s : State) : (finalizeEngine s).alg = s.alg := by
  cases h : s.phase.accepting
  · rw [finalizeEngine_not_accepting s h, raise_alg]
  · simp [finalizeEngine_accepting s h]

theorem finalizeEngine_finished {s : State} {msg : List Byte} (hw : s.buf.wf) (h : Absorbed s msg) :
    Finished (finalizeEngine s) msg := by
  rw [finalizeEngine_accepting s h.phase]
  refine ⟨rfl, ?_, rfl, ?_⟩
  · simpa using h.len
  · simpa using padAndFinish_messageHash hw h

/-! ## Runs of commands that complete -/

theorem decode_encode {i : Instr} (h : i.WellFormed) : decode (encode i) = .command i := by
  cases i with
  | rdigIdx idx =>
    have hidx : idx.toNat < 64 := of_decide_eq_true h
    simp [encode, decode_commandWord, decodeReadDigest, hidx, withZeroData]
  | _ => simp [encode, decode_commandWord, decodeInit, decodeUpdate, decodeNoOperand, withZeroData]

theorem initCommand_wellFormed (alg : Alg) : (initCommand alg).WellFormed := by cases alg <;> rfl

theorem wellFormed_of_updatePayload {i : Instr} {bytes : List Byte} (h : updatePayload i = some bytes) :
    i.WellFormed := by
  cases i with
  | rdigIdx idx => cases h
  | _ => rfl

theorem payloads_cons {i : Instr} {us : List Instr} {msg : List Byte} (h : payloads (i :: us) = some msg) :
    ∃ bytes more, updatePayload i = some bytes ∧ payloads us = some more ∧ msg = bytes ++ more := by
  unfold payloads at h
  split at h
  case h_1 bytes more hi hus => exact ⟨bytes, more, hi, hus, (Option.some.inj h).symm⟩
  case h_2 => cases h

/-- From s, the first n moves of the host are commands that complete with rdata 0, the moves left over are `rest`, and t is the
state after them. -/
structure Completes (n : Nat) (rest : List HostMove) (s t : State) : Prop where
  run : Host.Core.run Sys2Proof.core n s = .next t
  host : t.host = rest
  padLimit128 : t.padLimit128 = s.padLimit128
  responses : t.responses = s.responses ++ List.replicate n ⟨.ok, 0⟩

theorem Completes.trans {m n : Nat} {mid rest : List HostMove} {s t u : State} (hm : Completes m mid s t)
    (hn : Completes n rest t u) : Completes (m + n) rest s u where
  run := (run_add n s t m hm.run).trans hn.run
  host := hn.host
  padLimit128 := hn.padLimit128.trans hm.padLimit128
  responses := by rw [hn.responses, hm.responses, List.append_assoc, List.replicate_add]

section
variable {s : State} {rest : List HostMove}

theorem step_wellFormed {i : Instr} (hi : i.WellFormed) (hh : s.host = issuing [i] ++ rest) :
    step s = exec i { s with host := rest } := step_issued i (decode_encode hi) s rest hh

theorem init_completes (alg : Alg) (hh : s.host = issuing [initCommand alg] ++ rest) :
    Completes 1 rest s (initEngine alg { s with host := rest }) where
  run := run_next 0 _ _ ((step_wellFormed (initCommand_wellFormed alg) hh).trans (exec_initCommand alg _))
  host := rfl
  padLimit128 := rfl
  responses := rfl

theorem update_completes {i : Instr} {bytes : List Byte} (hi : updatePayload i = some bytes)
    (hacc : s.phase.accepting = true) (hh : s.host = issuing [i] ++ rest) :
    Completes 1 rest s (updateEngine bytes { s with host := rest }) := by
  have hstep := (step_wellFormed (wellFormed_of_updatePayload hi) hh).trans (exec_update hi _)
  refine ⟨run_next 0 _ _ hstep, ?_, ?_, ?_⟩ <;> simp [updateEngine_accepting bytes { s with host := rest } hacc]

theorem finalize_completes (hacc : s.phase.accepting = true) (hh : s.host = issuing [.finalize] ++ rest) :
    Completes 1 rest s (finalizeEngine { s with host := rest }) := by
  have hstep : step s = .next (finalizeEngine { s with host := rest }) := step_wellFormed rfl hh
  refine ⟨run_next 0 _ _ hstep, ?_, ?_, ?_⟩ <;> simp [finalizeEngine_accepting { s with host := rest } hacc]

end

/-- Which moves the host has left does not matter to the message a state stands for. -/
theorem Absorbed.withHost {s : State} {msg : List Byte} (h : Absorbed s msg) (moves : List HostMove) :
    Absorbed { s with host := moves } msg := ⟨h.phase, h.len, h.fill, h.hash, h.tail⟩

theorem updates_complete (rest : List HostMove) (us : List Instr) : ∀ {bytes msg : List Byte} {s : State},
    payloads us = some bytes → s.host = issuing us ++ rest → s.buf.wf → Absorbed s msg →
    ∃ t, Completes us.length rest s t ∧ t.alg = s.alg ∧ t.buf.wf ∧ Absorbed t (msg ++ bytes) := by
  induction us with
  | nil =>
    intro bytes msg s hus hh hw h
    cases hus
    exact ⟨s, ⟨rfl, hh, rfl, by simp⟩, rfl, hw, by rwa [List.append_nil]⟩
  | cons i us ih =>
    intro bytes msg s hus hh hw h
    obtain ⟨first, more, hi, hmore, rfl⟩ := payloads_cons hus
    have hfirst := update_completes hi h.phase hh
    obtain ⟨hw', h'⟩ := updateEngine_absorbed first (s := { s with host := issuing us ++ rest }) hw (h.withHost _)
    obtain ⟨t, hrest, halg, hwt, ht⟩ := ih hmore hfirst.host hw' h'
    refine ⟨t, ?_, halg.trans (updateEngine_alg _ _), hwt, List.append_assoc msg first more ▸ ht⟩
    rw [List.length_cons, Nat.add_comm]
    exact hfirst.trans hrest

/-- Settles O45: INIT stands for the empty message, each UPDATE extends it by its payload, and FINALIZE finishes it. -/
theorem engineHashesTheMessage : Obligations.EngineHashesTheMessage := by
  intro alg us msg s rest hus hw hh
  have hinit : Completes 1 (issuing us ++ (issuing [.finalize] ++ rest)) s _ :=
    init_completes alg (by simpa [issuing] using hh)
  obtain ⟨t, hupdates, halg, hwt, ht⟩ :=
    updates_complete (issuing [.finalize] ++ rest) us hus hinit.host hw (initEngine_absorbed alg _)
  have hfinal := finalize_completes ht.phase hupdates.host
  have hall := (hinit.trans hupdates).trans hfinal
  rw [show 1 + us.length + 1 = us.length + 2 by omega] at hall
  have hfinished := finalizeEngine_finished (s := { t with host := rest }) hwt (ht.withHost rest)
  exact ⟨_, hall.run, (finalizeEngine_alg _).trans halg, hall.host, hall.padLimit128, hfinished, hall.responses⟩

end Sys2Proof.Machine
end

section
/-! SUPPORT and PROOFS. The rotator/shifter, the packings and the mixing functions of 41_bitops.md (R120 to R141), with the MD4
and MD5 functions of R151 to R153 and R171 to R174. -/

namespace Sys2Proof.Machine

/-! ## The rotator and the shifter (R120 to R125) -/

/-- A word shifted up by k does not overlap one below 2^k, so their OR is the sum. -/
theorem toNat_shiftLeft_or {w k : Nat} {x y : BitVec w} (hk : k ≤ w) (hy : y.toNat < 2 ^ k) :
    (x <<< k ||| y).toNat = x.toNat * 2 ^ k % 2 ^ w + y.toNat := by
  have hshift : x.toNat * 2 ^ k % 2 ^ w = (x.toNat % 2 ^ (w - k)) <<< k := by
    rw [Nat.shiftLeft_eq, ← Nat.mul_mod_mul_right, ← Nat.pow_add, Nat.sub_add_cancel hk]
  rw [BitVec.toNat_or, BitVec.toNat_shiftLeft, Nat.shiftLeft_eq, hshift, Nat.shiftLeft_add_eq_or_of_lt hy]

theorem rotAmount_eq_none_iff (w n : Nat) : rotAmount w n = none ↔ n = 0 ∨ w ≤ n := by
  rw [rotAmount, dite_eq_right_iff]
  constructor
  · intro h
    by_contra hn
    exact nomatch h (by omega)
  · intro hn h
    omega

section
variable {w : Nat} (x : BitVec w) (n : RotAmount w)

theorem shr_toNat : (shr x n).toNat = x.toNat / 2 ^ n.val := by
  rw [shr, BitVec.toNat_ushiftRight, Nat.shiftRight_eq_div_pow]

theorem rotl_toNat : (rotl x n).toNat = x.toNat * 2 ^ n.val % 2 ^ w + x.toNat / 2 ^ (w - n.val) := by
  have hn : n.val ≤ w := n.property.2.le
  have hlow : (x >>> (w - n.val)).toNat < 2 ^ n.val := by
    simpa only [Nat.sub_sub_self hn] using BitVec.toNat_ushiftRight_lt x (w - n.val) (Nat.sub_le w n.val)
  rw [rotl, toNat_shiftLeft_or hn hlow, BitVec.toNat_ushiftRight, Nat.shiftRight_eq_div_pow]

/-- R121: what leaves at the bottom comes back at the top, so turning right by n is turning left by w - n. -/
theorem rotr_eq_rotl {m : RotAmount w} (hm : m.val = w - n.val) : rotr x n = rotl x m := by
  rw [rotr, rotl, hm, Nat.sub_sub_self n.property.2.le, BitVec.or_comm]

theorem rotr_toNat : (rotr x n).toNat = x.toNat / 2 ^ n.val + x.toNat * 2 ^ (w - n.val) % 2 ^ w := by
  obtain ⟨hpos, hlt⟩ := n.property
  rw [rotr_eq_rotl x n (m := ⟨w - n.val, by omega⟩) rfl, rotl_toNat, Nat.sub_sub_self hlt.le, Nat.add_comm]

end

/-- Settles O50: the two shifted parts of a rotation do not overlap, so their OR is the sum. -/
theorem rotatorAndShifterAsNumbers : Obligations.RotatorAndShifterAsNumbers :=
  ⟨rotAmount_eq_none_iff,
    fun _ x n _ => ⟨rotl_toNat x n, rotr_toNat x n, fun _ hm => rotr_eq_rotl x n hm, shr_toNat x n⟩⟩

/-! ## Packing and unpacking (R126 to R129) -/

/-- A byte put above a word that lies below it adds its own value at its place: `toNat_or_field` at either width, in the order
in which BE32 and BE64 write their bytes. -/
theorem toNat_byte_or {w k m : Nat} {b : Byte} {y : BitVec w} (hy : y.toNat = m) (hm : m < 2 ^ k) (hk : k + 8 ≤ w) :
    (b.setWidth w <<< k ||| y).toNat = b.toNat * 2 ^ k + m := by
  subst hy
  have hb : b.toNat * 2 ^ k < 2 ^ w := calc
    b.toNat * 2 ^ k < 2 ^ 8 * 2 ^ k := Nat.mul_lt_mul_of_pos_right b.isLt (Nat.two_pow_pos k)
    _ = 2 ^ (k + 8) := by rw [Nat.mul_comm, Nat.pow_add]
    _ ≤ 2 ^ w := Nat.pow_le_pow_right (by decide) hk
  rw [toNat_shiftLeft_or (by omega) hm, BitVec.toNat_setWidth_of_le (by omega), Nat.mod_eq_of_lt hb]

/-- The byte of a word at the bit `lo` is the one whose value the number has there. -/
theorem extractLsb'_eq_byte {w lo : Nat} {x : BitVec w} {b : Byte} (h : x.toNat / 2 ^ lo % 2 ^ 8 = b.toNat) :
    x.extractLsb' lo 8 = b := by
  apply BitVec.eq_of_toNat_eq
  rw [BitVec.extractLsb'_toNat, Nat.shiftRight_eq_div_pow, h]

section
variable (s0 s1 s2 s3 s4 s5 s6 s7 : Byte)

theorem be32_toNat : (be32 s0 s1 s2 s3).toNat =
    s0.toNat * 2 ^ 24 + s1.toNat * 2 ^ 16 + s2.toNat * 2 ^ 8 + s3.toNat := by
  have h3 : (s3.setWidth 32).toNat = s3.toNat := BitVec.toNat_setWidth_of_le (by decide)
  have h2 := toNat_byte_or (b := s2) (k := 8) h3 (by omega) (by decide)
  have h1 := toNat_byte_or (b := s1) (k := 16) h2 (by omega) (by decide)
  have h0 := toNat_byte_or (b := s0) (k := 24) h1 (by omega) (by decide)
  simp only [be32, BitVec.or_assoc, h0, Nat.add_assoc]

theorem be64_toNat : (be64 s0 s1 s2 s3 s4 s5 s6 s7).toNat =
    s0.toNat * 2 ^ 56 + s1.toNat * 2 ^ 48 + s2.toNat * 2 ^ 40 + s3.toNat * 2 ^ 32 +
      s4.toNat * 2 ^ 24 + s5.toNat * 2 ^ 16 + s6.toNat * 2 ^ 8 + s7.toNat := by
  have h7 : (s7.setWidth 64).toNat = s7.toNat := BitVec.toNat_setWidth_of_le (by decide)
  have h6 := toNat_byte_or (b := s6) (k := 8) h7 (by omega) (by decide)
  have h5 := toNat_byte_or (b := s5) (k := 16) h6 (by omega) (by decide)
  have h4 := toNat_byte_or (b := s4) (k := 24) h5 (by omega) (by decide)
  have h3 := toNat_byte_or (b := s3) (k := 32) h4 (by omega) (by decide)
  have h2 := toNat_byte_or (b := s2) (k := 40) h3 (by omega) (by decide)
  have h1 := toNat_byte_or (b := s1) (k := 48) h2 (by omega) (by decide)
  have h0 := toNat_byte_or (b := s0) (k := 56) h1 (by omega) (by decide)
  simp only [be64, BitVec.or_assoc, h0, Nat.add_assoc]

theorem unBE32_be32 : unBE32 (be32 s0 s1 s2 s3) = [s0, s1, s2, s3] := by
  have h := be32_toNat s0 s1 s2 s3
  rw [unBE32, extractLsb'_eq_byte (b := s0) (lo := 24) (by omega), extractLsb'_eq_byte (b := s1) (lo := 16) (by omega),
    extractLsb'_eq_byte (b := s2) (lo := 8) (by omega), extractLsb'_eq_byte (b := s3) (lo := 0) (by omega)]

theorem unBE64_be64 : unBE64 (be64 s0 s1 s2 s3 s4 s5 s6 s7) = [s0, s1, s2, s3, s4, s5, s6, s7] := by
  have h := be64_toNat s0 s1 s2 s3 s4 s5 s6 s7
  rw [unBE64, extractLsb'_eq_byte (b := s0) (lo := 56) (by omega), extractLsb'_eq_byte (b := s1) (lo := 48) (by omega),
    extractLsb'_eq_byte (b := s2) (lo := 40) (by omega), extractLsb'_eq_byte (b := s3) (lo := 32) (by omega),
    extractLsb'_eq_byte (b := s4) (lo := 24) (by omega), extractLsb'_eq_byte (b := s5) (lo := 16) (by omega),
    extractLsb'_eq_byte (b := s6) (lo := 8) (by omega), extractLsb'_eq_byte (b := s7) (lo := 0) (by omega)]

theorem le32_eq_be32 : le32 s0 s1 s2 s3 = be32 s3 s2 s1 s0 := by
  rw [le32, be32, BitVec.or_comm, BitVec.or_comm (_ ||| _) (s2.setWidth 32 <<< 16), BitVec.or_comm (s0.setWidth 32),
    BitVec.or_assoc, BitVec.or_assoc]

end

theorem unLE32_eq_reverse (x : Word32) : unLE32 x = (unBE32 x).reverse := rfl

theorem unLE64_eq_reverse (x : Word64) : unLE64 x = (unBE64 x).reverse := rfl

/-- Settles O51: the little-endian forms are the big-endian ones with the bytes in reverse. -/
theorem packingAndUnpackingAreInverse : Obligations.PackingAndUnpackingAreInverse := by
  constructor
  · intro s0 s1 s2 s3
    refine ⟨?_, ?_, be32_toNat s0 s1 s2 s3, unBE32_be32 s0 s1 s2 s3⟩
    · rw [le32_eq_be32, be32_toNat]
      omega
    · rw [le32_eq_be32, unLE32_eq_reverse, unBE32_be32]
      rfl
  · intro s0 s1 s2 s3 s4 s5 s6 s7
    refine ⟨be64_toNat s0 s1 s2 s3 s4 s5 s6 s7, unBE64_be64 s0 s1 s2 s3 s4 s5 s6 s7, ?_, ?_⟩
    · rw [le64, be64_toNat]
      omega
    · rw [le64, unLE64_eq_reverse, unBE64_be64]
      rfl

/-! ## The mixing functions, bit by bit (R131 to R133, R151 to R153, R171 to R174) -/

/-- Choosing between b and c by a, as Ch writes it. -/
theorem and_xor_not_and_eq_ite (a b c : Bool) : (a && b ^^ !a && c) = if a then b else c := by cases a <;> simp

/-- The majority of three bits, as Maj writes it. -/
theorem and_xor_and_xor_and_eq_majority :
    ∀ a b c : Bool, (a && b ^^ a && c ^^ b && c) = decide (2 ≤ a.toNat + b.toNat + c.toNat) := by decide

/-- The parity of three bits, as Parity writes it. -/
theorem xor_xor_eq_parity :
    ∀ a b c : Bool, (a ^^ b ^^ c) = decide ((a.toNat + b.toNat + c.toNat) % 2 = 1) := by decide

theorem ch_getLsbD {w : Nat} (x y z : BitVec w) {i : Nat} (hi : i < w) :
    (ch x y z).getLsbD i = if x.getLsbD i then y.getLsbD i else z.getLsbD i := by
  simp only [ch, BitVec.getLsbD_xor, BitVec.getLsbD_and, BitVec.getLsbD_not, hi, decide_true, Bool.true_and,
    and_xor_not_and_eq_ite]

theorem maj_getLsbD {w : Nat} (x y z : BitVec w) (i : Nat) :
    (maj x y z).getLsbD i = decide (2 ≤ (x.getLsbD i).toNat + (y.getLsbD i).toNat + (z.getLsbD i).toNat) := by
  simp only [maj, BitVec.getLsbD_xor, BitVec.getLsbD_and, and_xor_and_xor_and_eq_majority]

theorem parity_getLsbD (x y z : Word32) (i : Nat) :
    (parity x y z).getLsbD i = decide (((x.getLsbD i).toNat + (y.getLsbD i).toNat + (z.getLsbD i).toNat) % 2 = 1) := by
  simp only [parity, BitVec.getLsbD_xor, xor_xor_eq_parity]

/-- The two parts of Ch share no bit, so OR and exclusive or give the same word. -/
theorem md4F_eq_ch (x y z : Word32) : md4F x y z = ch x y z := by
  have hbits : ∀ a b c : Bool, (a && b || !a && c) = (a && b ^^ !a && c) := by decide
  apply BitVec.eq_of_getLsbD_eq
  intro i hi
  simp only [md4F, ch, BitVec.getLsbD_or, BitVec.getLsbD_xor, BitVec.getLsbD_and, BitVec.getLsbD_not, hi, decide_true,
    Bool.true_and, hbits]

theorem md5F_eq_md4F (x y z : Word32) : md5F x y z = md4F x y z := rfl

/-- R172: MD5_G is MD5_F with z in the selecting place. -/
theorem md5G_eq_md5F (x y z : Word32) : md5G x y z = md5F z x y := by
  rw [md5G, md5F, BitVec.and_comm x z, BitVec.and_comm y]

/-- Of three pairs of bits, all, one or none are both 1, so OR and exclusive or give the same word. -/
theorem md4G_eq_maj (x y z : Word32) : md4G x y z = maj x y z := by
  have hbits : ∀ a b c : Bool, (a && b || a && c || b && c) = (a && b ^^ a && c ^^ b && c) := by decide
  apply BitVec.eq_of_getLsbD_eq
  intro i _
  simp only [md4G, maj, BitVec.getLsbD_or, BitVec.getLsbD_xor, BitVec.getLsbD_and, hbits]

theorem md4H_eq_parity (x y z : Word32) : md4H x y z = parity x y z := rfl

theorem md5H_eq_parity (x y z : Word32) : md5H x y z = parity x y z := rfl

theorem md5I_getLsbD (x y z : Word32) {i : Nat} (hi : i < 32) :
    (md5I x y z).getLsbD i = if x.getLsbD i ∨ z.getLsbD i = false then !y.getLsbD i else y.getLsbD i := by
  simp only [md5I, BitVec.getLsbD_xor, BitVec.getLsbD_or, BitVec.getLsbD_not, hi, decide_true, Bool.true_and]
  by_cases hsel : x.getLsbD i ∨ z.getLsbD i = false
  · have hone : (x.getLsbD i || !z.getLsbD i) = true := by simpa using hsel
    rw [hone, if_pos hsel, Bool.xor_true]
  · have hzero : (x.getLsbD i || !z.getLsbD i) = false := by simpa using hsel
    rw [hzero, if_neg hsel, Bool.xor_false]

/-- Settles O52: bit by bit, every MD4 and MD5 function but MD5_I is Ch, Maj or Parity. -/
theorem mixingFunctionsBitByBit : Obligations.MixingFunctionsBitByBit := by
  constructor
  · exact fun _ x y z i hi => ⟨ch_getLsbD x y z hi, maj_getLsbD x y z i⟩
  · intro x y z i hi
    rw [md5G_eq_md5F, md5F_eq_md4F, md5F_eq_md4F, md4F_eq_ch, md4F_eq_ch, md4G_eq_maj, md4H_eq_parity, md5H_eq_parity]
    exact ⟨parity_getLsbD x y z i, ch_getLsbD x y z hi, maj_getLsbD x y z i, parity_getLsbD x y z i, ch_getLsbD x y z hi,
      ch_getLsbD z x y hi, parity_getLsbD x y z i, md5I_getLsbD x y z hi⟩

/-! ## The sigma functions, bit by bit (R134 to R141) -/

section
variable {w : Nat} (x : BitVec w) (n : RotAmount w)

theorem rotr_eq_rotateRight : rotr x n = x.rotateRight n.val := by
  rw [rotr, BitVec.rotateRight_def, Nat.mod_eq_of_lt n.property.2]

theorem rotr_getLsbD {i : Nat} (hi : i < w) : (rotr x n).getLsbD i = x.getLsbD ((i + n.val) % w) := by
  have hn : n.val < w := n.property.2
  rw [rotr_eq_rotateRight, BitVec.getLsbD_rotateRight, Nat.mod_eq_of_lt hn]
  by_cases hwrap : i < w - n.val
  · rw [Nat.mod_eq_of_lt (by omega), Nat.add_comm i]
    simp [hwrap]
  · rw [Nat.mod_eq_sub_mod (by omega), Nat.mod_eq_of_lt (by omega), show i + n.val - w = i - (w - n.val) by omega]
    simp [hwrap, hi]

theorem shr_getLsbD (i : Nat) : (shr x n).getLsbD i = x.getLsbD (i + n.val) := by
  rw [shr, BitVec.getLsbD_ushiftRight, Nat.add_comm]

theorem rotr_xor_rotr_xor_rotr_getLsbD (p q : RotAmount w) {i : Nat} (hi : i < w) :
    (rotr x n ^^^ rotr x p ^^^ rotr x q).getLsbD i =
      (x.getLsbD ((i + n.val) % w) ^^ x.getLsbD ((i + p.val) % w) ^^ x.getLsbD ((i + q.val) % w)) := by
  simp only [BitVec.getLsbD_xor, rotr_getLsbD x _ hi]

theorem rotr_xor_rotr_xor_shr_getLsbD (p q : RotAmount w) {i : Nat} (hi : i < w) :
    (rotr x n ^^^ rotr x p ^^^ shr x q).getLsbD i =
      (x.getLsbD ((i + n.val) % w) ^^ x.getLsbD ((i + p.val) % w) ^^ x.getLsbD (i + q.val)) := by
  simp only [BitVec.getLsbD_xor, rotr_getLsbD x _ hi, shr_getLsbD]

end

/-- Settles O53: each big sigma is the exclusive or of three rotations, each small one of two rotations and a shift. -/
theorem sigmaFunctionsBitByBit : Obligations.SigmaFunctionsBitByBit := by
  constructor
  all_goals
    intro x i hi
    have big := rotr_xor_rotr_xor_rotr_getLsbD x (hi := hi)
    have small := rotr_xor_rotr_xor_shr_getLsbD x (hi := hi)
    exact ⟨big _ _ _, big _ _ _, small _ _ _, small _ _ _⟩

end Sys2Proof.Machine
end

section
/-! SUPPORT and PROOFS. The SHA-1 core, 44_sha1_core.md: the block as big-endian words (R42), the words of an extended schedule,
and the SHA-1 schedule (R191). -/

namespace Sys2Proof.Machine

/-! ## A block as big-endian words (R42) -/

theorem unpackBE32_length : ∀ blk : List Byte, (unpackBE32 blk).length = blk.length / 4
  | [] | [_] | [_, _] | [_, _, _] => by simp [unpackBE32]
  | _ :: _ :: _ :: _ :: rest => by
    simp only [unpackBE32, List.length_cons, unpackBE32_length rest]
    omega

theorem unpackBE32_getD : ∀ {blk : List Byte} {j : Nat}, 4 * j + 3 < blk.length →
    (unpackBE32 blk).getD j 0 =
      be32 (blk.getD (4 * j) 0) (blk.getD (4 * j + 1) 0) (blk.getD (4 * j + 2) 0) (blk.getD (4 * j + 3) 0)
  | _ :: _ :: _ :: _ :: _, 0, _ => rfl
  | _ :: _ :: _ :: _ :: rest, j + 1, h => unpackBE32_getD (blk := rest) (j := j) (by simp only [List.length_cons] at h; omega)

/-! ## The words of an extended schedule (R15)

`extendSchedule` holds the newest word first; reversed, its lists are in the order of `W`. -/

theorem getD_reverse_take {w t k : Nat} {W : List (BitVec w)} (ht : t ≤ W.length) (hk : k < t) :
    (W.take t).reverse.getD k 0 = W.getD (t - (k + 1)) 0 := by
  have hlen : (W.take t).length = t := List.length_take_of_le ht
  rw [List.getD_reverse k (by omega), hlen, List.getD_eq_getElem?_getD, List.getElem?_take_of_lt (by omega),
    ← List.getD_eq_getElem?_getD, Nat.sub_sub, Nat.add_comm 1]

section
variable {w : Nat} (next : List (BitVec w) → BitVec w)

/-- The equation at the newest word, where the definition unfolds at the oldest. -/
theorem extendSchedule_succ (n : Nat) (r : List (BitVec w)) :
    extendSchedule next (n + 1) r = next (extendSchedule next n r) :: extendSchedule next n r := by
  induction n generalizing r with
  | zero => rfl
  | succ n ih => exact ih (next r :: r)

@[simp] theorem extendSchedule_length (n : Nat) (r : List (BitVec w)) : (extendSchedule next n r).length = r.length + n := by
  induction n with
  | zero => rfl
  | succ n ih => rw [extendSchedule_succ, List.length_cons, ih, Nat.add_assoc]

theorem drop_extendSchedule (m n : Nat) (r : List (BitVec w)) :
    (extendSchedule next (n + m) r).drop m = extendSchedule next n r := by
  induction m with
  | zero => rfl
  | succ m ih => rw [← Nat.add_assoc, extendSchedule_succ, List.drop_succ_cons, ih]

variable {n t : Nat} {X : List (BitVec w)}

theorem reverse_extendSchedule_length : (extendSchedule next n X.reverse).reverse.length = X.length + n := by
  rw [List.length_reverse, extendSchedule_length, List.length_reverse]

theorem take_reverse_extendSchedule {k : Nat} (hk : k ≤ n) :
    (extendSchedule next n X.reverse).reverse.take (X.length + k) = (extendSchedule next k X.reverse).reverse := by
  obtain ⟨m, rfl⟩ := Nat.exists_eq_add_of_le hk
  rw [List.take_reverse, extendSchedule_length, List.length_reverse, ← Nat.add_assoc, Nat.add_sub_cancel_left,
    drop_extendSchedule]

/-- The schedule begins with the words it extends. -/
theorem reverse_extendSchedule_getD_of_lt (ht : t < X.length) :
    (extendSchedule next n X.reverse).reverse.getD t 0 = X.getD t 0 := by
  have hX : (extendSchedule next n X.reverse).reverse.take X.length = X :=
    (take_reverse_extendSchedule next (Nat.zero_le n)).trans X.reverse_reverse
  rw [List.getD_eq_getElem?_getD, ← List.getElem?_take_of_lt ht, hX, List.getD_eq_getElem?_getD]

/-- Every later word is the recurrence on the words before it, newest first. -/
theorem reverse_extendSchedule_getD_of_le (ht : X.length ≤ t) (htn : t < X.length + n) :
    (extendSchedule next n X.reverse).reverse.getD t 0 =
      next ((extendSchedule next n X.reverse).reverse.take t).reverse := by
  obtain ⟨k, rfl⟩ := Nat.exists_eq_add_of_le ht
  have hk : k + 1 ≤ n := by omega
  have hlen : (extendSchedule next k X.reverse).reverse.length = X.length + k := reverse_extendSchedule_length next
  rw [take_reverse_extendSchedule next (Nat.le_of_succ_le hk), List.reverse_reverse, List.getD_eq_getElem?_getD,
    ← List.getElem?_take_of_lt (show X.length + k < X.length + (k + 1) by omega), take_reverse_extendSchedule next hk,
    extendSchedule_succ, List.reverse_cons, List.getElem?_append_right hlen.le, hlen, Nat.sub_self]
  rfl

end

/-! ## The SHA-1 schedule (R191) -/

section
variable {blk : List Byte} {t : Nat} (hblk : blk.length = 64)
include hblk

theorem unpackBE32_block_length : (unpackBE32 blk).length = 16 := by
  rw [unpackBE32_length, hblk]

theorem sha1Schedule_length : (sha1Schedule blk).length = 80 := by
  rw [sha1Schedule, reverse_extendSchedule_length, unpackBE32_block_length hblk]

theorem sha1Schedule_getD_of_lt (ht : t < 16) : (sha1Schedule blk).getD t 0 = (unpackBE32 blk).getD t 0 :=
  reverse_extendSchedule_getD_of_lt sha1Next (by rwa [unpackBE32_block_length hblk])

theorem sha1Schedule_getD_of_le (ht : 16 ≤ t) (ht80 : t < 80) :
    (sha1Schedule blk).getD t 0 = sha1Next ((sha1Schedule blk).take t).reverse := by
  have hX := unpackBE32_block_length hblk
  exact reverse_extendSchedule_getD_of_le sha1Next (by omega) (by omega)

end

theorem sha1Next_reverse_take {t : Nat} {W : List Word32} (ht : 16 ≤ t) (hW : t ≤ W.length) :
    sha1Next (W.take t).reverse =
      rotl (W.getD (t - 3) 0 ^^^ W.getD (t - 8) 0 ^^^ W.getD (t - 14) 0 ^^^ W.getD (t - 16) 0) ⟨1, by decide⟩ := by
  have hback : ∀ k < 16, (W.take t).reverse.getD k 0 = W.getD (t - (k + 1)) 0 :=
    fun k hk => getD_reverse_take hW (by omega)
  rw [sha1Next, hback 2 (by decide), hback 7 (by decide), hback 13 (by decide), hback 15 (by decide)]

/-- Settles O55: the schedule extends the 16 words of the block by 64 words of its recurrence. -/
theorem sha1ScheduleRecurrence : Obligations.Sha1ScheduleRecurrence := by
  intro blk hblk
  have hlen := sha1Schedule_length hblk
  refine ⟨hlen, fun t ht => ?_, fun t ht ht80 => ?_⟩
  · exact (sha1Schedule_getD_of_lt hblk ht).trans (unpackBE32_getD (by omega))
  · exact (sha1Schedule_getD_of_le hblk ht ht80).trans (sha1Next_reverse_take ht (by omega))

end Sys2Proof.Machine
end

section
/-! SUPPORT and PROOFS. The SHA-2 schedules, 45_sha2_32_core.md (R212) and 46_sha2_64_core.md (R232): the block as 64-bit
big-endian words (R42), and one recurrence for both widths. -/

namespace Sys2Proof.Machine

/-! ## A block as 64-bit big-endian words (R42) -/

theorem unpackBE64_length : ∀ blk : List Byte, (unpackBE64 blk).length = blk.length / 8
  | [] | [_] | [_, _] | [_, _, _] | [_, _, _, _] | [_, _, _, _, _] | [_, _, _, _, _, _] | [_, _, _, _, _, _, _] => by
    simp [unpackBE64]
  | _ :: _ :: _ :: _ :: _ :: _ :: _ :: _ :: rest => by
    simp only [unpackBE64, List.length_cons, unpackBE64_length rest]
    omega

theorem unpackBE64_getD : ∀ {blk : List Byte} {j : Nat}, 8 * j + 7 < blk.length →
    (unpackBE64 blk).getD j 0 =
      be64 (blk.getD (8 * j) 0) (blk.getD (8 * j + 1) 0) (blk.getD (8 * j + 2) 0) (blk.getD (8 * j + 3) 0)
        (blk.getD (8 * j + 4) 0) (blk.getD (8 * j + 5) 0) (blk.getD (8 * j + 6) 0) (blk.getD (8 * j + 7) 0)
  | _ :: _ :: _ :: _ :: _ :: _ :: _ :: _ :: _, 0, _ => rfl
  | _ :: _ :: _ :: _ :: _ :: _ :: _ :: _ :: rest, j + 1, h =>
    unpackBE64_getD (blk := rest) (j := j) (by simp only [List.length_cons] at h; omega)

theorem unpackBE64_block_length {blk : List Byte} (hblk : blk.length = 128) : (unpackBE64 blk).length = 16 := by
  rw [unpackBE64_length, hblk]

/-! ## The recurrence of both widths (R212, R232) -/

/-- `sha256Next` and `sha512Next` with the word width and the two small sigmas left open. -/
def sha2Next {w : Nat} (ssig0 ssig1 : BitVec w → BitVec w) (r : List (BitVec w)) : BitVec w :=
  ssig1 (r.getD 1 0) + r.getD 6 0 + ssig0 (r.getD 14 0) + r.getD 15 0

theorem sha256Next_eq_sha2Next : sha256Next = sha2Next ssig0_32 ssig1_32 := rfl

theorem sha512Next_eq_sha2Next : sha512Next = sha2Next ssig0_64 ssig1_64 := rfl

section
variable {w t : Nat} (ssig0 ssig1 : BitVec w → BitVec w)

theorem sha2Next_reverse_take {W : List (BitVec w)} (ht : 16 ≤ t) (hW : t ≤ W.length) :
    sha2Next ssig0 ssig1 (W.take t).reverse =
      ssig1 (W.getD (t - 2) 0) + W.getD (t - 7) 0 + ssig0 (W.getD (t - 15) 0) + W.getD (t - 16) 0 := by
  have hback : ∀ k < 16, (W.take t).reverse.getD k 0 = W.getD (t - (k + 1)) 0 :=
    fun k hk => getD_reverse_take hW (by omega)
  rw [sha2Next, hback 1 (by decide), hback 6 (by decide), hback 14 (by decide), hback 15 (by decide)]

theorem sha2_schedule_recurrence {n : Nat} {X W : List (BitVec w)} (hX : X.length = 16)
    (hW : W = (extendSchedule (sha2Next ssig0 ssig1) n X.reverse).reverse) (ht : 16 ≤ t) (htn : t < 16 + n) :
    W.getD t 0 = ssig1 (W.getD (t - 2) 0) + W.getD (t - 7) 0 + ssig0 (W.getD (t - 15) 0) + W.getD (t - 16) 0 := by
  have hlen : W.length = X.length + n := by rw [hW, reverse_extendSchedule_length]
  calc W.getD t 0 = sha2Next ssig0 ssig1 (W.take t).reverse := by
        rw [hW]; exact reverse_extendSchedule_getD_of_le _ (by omega) (by omega)
    _ = _ := sha2Next_reverse_take ssig0 ssig1 ht (by omega)

end

/-! ## The SHA-256 schedule (R212) -/

section
variable {blk : List Byte} {t : Nat} (hblk : blk.length = 64)
include hblk

theorem sha256Schedule_length : (sha256Schedule blk).length = 64 := by
  rw [sha256Schedule, reverse_extendSchedule_length, unpackBE32_block_length hblk]

theorem sha256Schedule_getD_of_lt (ht : t < 16) : (sha256Schedule blk).getD t 0 = (unpackBE32 blk).getD t 0 :=
  reverse_extendSchedule_getD_of_lt sha256Next (by rwa [unpackBE32_block_length hblk])

theorem sha256Schedule_getD_of_le (ht : 16 ≤ t) (ht64 : t < 64) :
    (sha256Schedule blk).getD t 0 =
      ssig1_32 ((sha256Schedule blk).getD (t - 2) 0) + (sha256Schedule blk).getD (t - 7) 0 +
        ssig0_32 ((sha256Schedule blk).getD (t - 15) 0) + (sha256Schedule blk).getD (t - 16) 0 :=
  sha2_schedule_recurrence ssig0_32 ssig1_32 (unpackBE32_block_length hblk)
    (by rw [sha256Schedule, sha256Next_eq_sha2Next]) ht ht64

end

/-! ## The SHA-512 schedule (R232) -/

section
variable {blk : List Byte} {t : Nat} (hblk : blk.length = 128)
include hblk

theorem sha512Schedule_length : (sha512Schedule blk).length = 80 := by
  rw [sha512Schedule, reverse_extendSchedule_length, unpackBE64_block_length hblk]

theorem sha512Schedule_getD_of_lt (ht : t < 16) : (sha512Schedule blk).getD t 0 = (unpackBE64 blk).getD t 0 :=
  reverse_extendSchedule_getD_of_lt sha512Next (by rwa [unpackBE64_block_length hblk])

theorem sha512Schedule_getD_of_le (ht : 16 ≤ t) (ht80 : t < 80) :
    (sha512Schedule blk).getD t 0 =
      ssig1_64 ((sha512Schedule blk).getD (t - 2) 0) + (sha512Schedule blk).getD (t - 7) 0 +
        ssig0_64 ((sha512Schedule blk).getD (t - 15) 0) + (sha512Schedule blk).getD (t - 16) 0 :=
  sha2_schedule_recurrence ssig0_64 ssig1_64 (unpackBE64_block_length hblk)
    (by rw [sha512Schedule, sha512Next_eq_sha2Next]) ht ht80

end

/-- Settles O56: each schedule extends the 16 words of its block by the one recurrence, at its own width. -/
theorem sha2ScheduleRecurrence : Obligations.Sha2ScheduleRecurrence := by
  constructor
  · intro blk hblk
    refine ⟨sha256Schedule_length hblk, fun t ht => ?_, fun t => sha256Schedule_getD_of_le hblk⟩
    exact (sha256Schedule_getD_of_lt hblk ht).trans (unpackBE32_getD (by omega))
  · intro blk hblk
    refine ⟨sha512Schedule_length hblk, fun t ht => ?_, fun t => sha512Schedule_getD_of_le hblk⟩
    exact (sha512Schedule_getD_of_lt hblk ht).trans (unpackBE64_getD (by omega))

end Sys2Proof.Machine
end

section
/-! SUPPORT and PROOFS. The error rules of 60_exceptions.md: which error a command raises (R251 to R253), that an error writes
the two error fields and its response only (R254), and which of several errors is reported (R255). -/

namespace Sys2Proof.Machine

/-! ## What raises an error (R251 to R253) -/

/-- An error is precise (R254): this is the whole of what `raise` writes. -/
theorem raise_eq (e : RespCode) (s : State) :
    raise e s = { s with lastErr := e, errSticky := true, responses := s.responses ++ [⟨e, 0⟩] } := rfl

theorem exec_finalize (s : State) : exec .finalize s = .next (finalizeEngine s) := rfl

theorem exec_rdigIdx (idx : BitVec 8) (s : State) : exec (.rdigIdx idx) s = .next (readDigest idx.toNat s) := rfl

theorem step_decoded {s : State} {w : Word64} {rest : List HostMove} {i : Instr} (hh : s.host = .command w :: rest)
    (hw : decode w = .command i) : step s = exec i { s with host := rest } := by
  obtain ⟨h, -⟩ | ⟨_, h, -⟩ | ⟨_, _, _, h, hd, e⟩ | ⟨_, _, _, h, hd, -⟩ := step_cases s <;> cases hh.symm.trans h
  · cases hd.symm.trans hw
    exact e
  · cases hd.symm.trans hw

/-- Settles O8: the illegal word raises IllegalCommand, whatever PHASE is. -/
theorem illegalWordRaisesIllegalCommand : Obligations.IllegalWordRaisesIllegalCommand := by
  intro s w rest hh hw
  rw [step_illegal hh hw, raise_eq]

/-- Settles O27: by the outcome of READ_DIGEST beyond the digest. -/
theorem readDigestBeyondTheDigestIsIndexRange : Obligations.ReadDigestBeyondTheDigestIsIndexRange := by
  intro s idx _ hphase hidx
  rw [exec_rdigIdx, readDigest_beyond_digest hphase hidx, raise_eq]

/-- Settles O31: UPDATE and FINALIZE by the phases that accept them, READ_DIGEST by Finalized; INIT and READ_STATUS check no
phase. -/
theorem invalidStateIsRaisedByPhase : Obligations.InvalidStateIsRaisedByPhase := by
  intro s raised
  have raised_eq : raised = .next (raise .invalidState s) := rfl
  refine ⟨fun hphase => ?_, fun hphase idx => ?_, ?_⟩
  · have hacc : s.phase.accepting = false := by rcases hphase with h | h <;> rw [h] <;> rfl
    refine ⟨fun i bytes hi => ?_, ?_⟩
    · rw [exec_update hi, updateEngine_not_accepting bytes s hacc, raised_eq]
    · rw [exec_finalize, finalizeEngine_not_accepting s hacc, raised_eq]
  · rw [exec_rdigIdx, readDigest_not_finalized hphase, raised_eq]
  · rintro i (rfl | ⟨alg, rfl⟩)
    · exact ⟨readStatus s, statusWord s, rfl, readStatus_responses s⟩
    · exact ⟨initEngine alg s, 0, exec_initCommand alg s, initEngine_responses alg s⟩

/-! ## The error a step reports (R254, R255) -/

/-- Settles O33: a step that raises answers the code it raises, and a step that completes answers OK. -/
theorem errorsWriteOnlyTheErrorFields : Obligations.ErrorsWriteOnlyTheErrorFields := by
  intro s t w rest e rd hh hstep hresp he
  rcases step_command_cases s t w rest hh hstep with ⟨er, -, ht, -⟩ | ⟨d, hok, -⟩
  · have hcode : er = e := by
      rw [ht, raise_responses] at hresp
      cases List.append_cancel_left hresp
      rfl
    rw [ht, hcode, raise_eq]
  · cases List.append_cancel_left (hok.symm.trans hresp)
    exact absurd rfl he

/-- The response of a step that raises an error has the code raised. -/
theorem code_eq_of_step_raise {s t : State} {rest : List HostMove} {e : RespCode} {r : Response}
    (hraise : step s = .next (raise e { s with host := rest })) (hstep : step s = .next t)
    (hresp : t.responses = s.responses ++ [r]) : r.code = e := by
  cases hraise.symm.trans hstep
  cases List.append_cancel_left hresp
  rfl

/-- Settles O34: a word is decoded before PHASE is looked at, and PHASE before the index. -/
theorem errorPriority : Obligations.ErrorPriority := by
  intro s t w rest r hh hstep hresp
  refine ⟨fun hw => ?_, fun idx hw hphase => ?_, fun idx hw hphase hidx => ?_⟩
  · exact code_eq_of_step_raise (step_illegal hh hw) hstep hresp
  · have hraise : step s = .next (raise .invalidState { s with host := rest }) := by
      rw [step_decoded hh hw, exec_rdigIdx, readDigest_not_finalized (s := { s with host := rest }) hphase]
    exact code_eq_of_step_raise hraise hstep hresp
  · have hraise : step s = .next (raise .indexRange { s with host := rest }) := by
      rw [step_decoded hh hw, exec_rdigIdx, readDigest_beyond_digest (s := { s with host := rest }) hphase hidx]
    exact code_eq_of_step_raise hraise hstep hresp

end Sys2Proof.Machine
end

section
/-! SUPPORT and PROOFS. The invariants of 10_state.md: what a step can do to the registers the hashing rests on, and from it that
legal states stay legal (R33) and that a state keeps standing for a message (R41, R98, R99). -/

namespace Sys2Proof.Machine

/-! ## What a step can do to the registers the hashing rests on -/

/-- The registers ABSORB reads and writes are the same (40_engine_commands.md R84). -/
structure SameBlock (s t : State) : Prop where
  alg : t.alg = s.alg
  h : t.h = s.h
  len : t.len = s.len
  buf : t.buf = s.buf
  fill : t.fill = s.fill

/-- The two states differ at most in the error fields and in what is the model's own. -/
structure SameHashing (s t : State) : Prop extends SameBlock s t where
  phase : t.phase = s.phase
  padLimit128 : t.padLimit128 = s.padLimit128

theorem SameHashing.refl (s : State) : SameHashing s s := ⟨⟨rfl, rfl, rfl, rfl, rfl⟩, rfl, rfl⟩

theorem raise_sameHashing (e : RespCode) (s : State) (rest : List HostMove) :
    SameHashing s (raise e { s with host := rest }) := ⟨⟨rfl, rfl, rfl, rfl, rfl⟩, rfl, rfl⟩

theorem complete_sameHashing (d : Word32) (s : State) (rest : List HostMove) :
    SameHashing s (complete d { s with host := rest }) := ⟨⟨rfl, rfl, rfl, rfl, rfl⟩, rfl, rfl⟩

theorem readStatus_sameHashing (s : State) (rest : List HostMove) :
    SameHashing s (readStatus { s with host := rest }) := ⟨⟨rfl, rfl, rfl, rfl, rfl⟩, rfl, rfl⟩

/-- A step leaves these registers, or it is a reset event, an INIT, or an UPDATE or FINALIZE in a phase that accepts it. -/
theorem step_hashing_cases {s t : State} (e : step s = .next t) :
    SameHashing s t ∨ ∃ rest,
      t = takeReset { s with host := rest } ∨
      (∃ alg, t = initEngine alg { s with host := rest }) ∨
      (s.phase.accepting = true ∧ ∃ bytes, t = updateEngine bytes { s with host := rest }) ∨
      (s.phase.accepting = true ∧ t = finalizeEngine { s with host := rest }) := by
  cases hh : s.host with
  | nil =>
    obtain ⟨-, e'⟩ | ⟨_, h, -⟩ | ⟨_, _, _, h, -⟩ | ⟨_, _, _, h, -⟩ := step_cases s
    case inl => cases e'.symm.trans e; exact .inl (.refl s)
    all_goals cases hh.symm.trans h
  | cons m rest =>
    cases m with
    | reset => exact .inr ⟨rest, .inl (step_reset hh e)⟩
    | command w =>
      rcases step_command_cases s t w rest hh e with ⟨er, -, rfl, -⟩ | ⟨d, -, hcase⟩
      · exact .inl (raise_sameHashing er s rest)
      · rcases hcase with ⟨a, -, -, rfl⟩ | ⟨_, b, -, -, hacc, -, rfl⟩ | ⟨-, hacc, -, rfl⟩ | ⟨_, -, -, -, -, rfl⟩ |
          ⟨-, rfl⟩
        · exact .inr ⟨rest, .inr (.inl ⟨a, rfl⟩)⟩
        · have hupdate := updateEngine_accepting b { s with host := rest } hacc
          exact .inr ⟨rest, .inr (.inr (.inl ⟨hacc, b, hupdate.symm⟩))⟩
        · have hfinalize := finalizeEngine_accepting { s with host := rest } hacc
          exact .inr ⟨rest, .inr (.inr (.inr ⟨hacc, hfinalize.symm⟩))⟩
        · exact .inl (complete_sameHashing d s rest)
        · exact .inl (readStatus_sameHashing s rest)

/-! ## Legal states (R33) -/

/-- The words of a hash-state file are those of its algorithm: upper halves 0 for W = 32, and unused words 0 (R33.3). -/
def LegalWords (alg : Alg) (h : HashFile) : Prop :=
  ∀ i : Fin 8, (alg.wordBits = 32 → h[i].toNat < 2 ^ 32) ∧ (alg.stateWords ≤ i.val → h[i] = 0)

theorem hashLegal_iff (s : State) : HashLegal s ↔ (s.phase ≠ .unconfigured → LegalWords s.alg s.h) := Iff.rfl

theorem Phase.ne_unconfigured_of_accepting {p : Phase} (h : p.accepting = true) : p ≠ .unconfigured := by
  rintro rfl
  cases h

theorem initialHash_legalWords (alg : Alg) : LegalWords alg (initialHash alg) := by
  unfold LegalWords
  cases alg <;> decide

theorem compressHash_legalWords {alg : Alg} {h : HashFile} (hh : LegalWords alg h) (blk : List Byte) :
    LegalWords alg (compressHash alg h blk) := by
  intro i
  rcases Nat.lt_or_ge i.val alg.stateWords with hi | hi
  · exact ⟨compressHash_low alg h blk i hi, fun h => absurd hi h.not_gt⟩
  · rw [compressHash_high alg h blk i hi]
    exact hh i

/-- ABSORB writes H by a compression or not at all. -/
theorem absorb_h_keeps {P : HashFile → Prop} {s : State} (hP : ∀ blk h, P h → P (compressHash s.alg h blk)) (b : Byte)
    (h : P s.h) : P (absorb s b).h := by
  by_cases hfull : s.fill.toNat + 1 = s.alg.blockSize
  · rw [absorb_full s b hfull]; exact hP _ _ h
  · rw [absorb_inside s b hfull]; exact h

/-- PAD_AND_FINISH writes H by one or two compressions. -/
theorem padAndFinish_h_keeps {P : HashFile → Prop} {s : State} (hP : ∀ blk h, P h → P (compressHash s.alg h blk))
    (h : P s.h) : P (padAndFinish s).h := by
  rcases padAndFinish_cases s with ⟨-, e⟩ | ⟨-, e⟩ <;> rw [e]
  · exact hP _ _ h
  · exact hP _ _ (hP _ _ h)

theorem absorb_legal {s : State} (b : Byte) (hacc : s.phase.accepting = true) (h : Legal s) : Legal (absorb s b) := by
  obtain ⟨hfill, hhash, hwf⟩ := h
  simp only [FillLegal, hacc, if_true] at hfill
  obtain ⟨hlt, hmod⟩ := hfill
  have hwords := (hashLegal_iff s).1 hhash (Phase.ne_unconfigured_of_accepting hacc)
  refine ⟨?_, ?_, absorb_wf s b hwf⟩
  · have hlen : (s.len + 1).toNat % s.alg.blockSize = (s.fill.toNat + 1) % s.alg.blockSize := by
      rw [BitVec.toNat_add, Nat.mod_mod_of_dvd _ (blockSize_dvd s.alg), ← hmod, Nat.mod_add_mod]
      rfl
    simp only [FillLegal, absorb_phase, hacc, if_true, absorb_alg, absorb_fill s b hlt, absorb_len, hlen, and_true]
    exact Nat.mod_lt _ (blockSize_pos s.alg)
  · rw [hashLegal_iff, absorb_alg]
    exact fun _ => absorb_h_keeps (P := LegalWords s.alg) (fun blk _ hw => compressHash_legalWords hw blk) b hwords

theorem absorbBytes_legal {s : State} (bytes : List Byte) (hacc : s.phase.accepting = true) (h : Legal s) :
    Legal (absorbBytes s bytes) :=
  (absorbBytes_keeps (fun t => t.phase.accepting = true ∧ Legal t)
    (fun t b ⟨ha, ht⟩ => ⟨by rwa [absorb_phase], absorb_legal b ha ht⟩) bytes s ⟨hacc, h⟩).2

theorem Legal.congr {s t : State} (h : Legal s) (hst : SameHashing s t) : Legal t := by
  obtain ⟨⟨halg, hh, hlen, hbuf, hfill⟩, hphase, -⟩ := hst
  refine ⟨?_, ?_, hbuf ▸ h.memory⟩
  · rw [FillLegal, hphase, halg, hlen, hfill]; exact h.fill
  · rw [hashLegal_iff, hphase, halg, hh]; exact h.hash

theorem takeReset_legal {s : State} (hw : s.buf.wf) : Legal (takeReset s) := ⟨rfl, fun h => absurd rfl h, hw⟩

theorem initEngine_legal (alg : Alg) {s : State} (hw : s.buf.wf) : Legal (initEngine alg s) :=
  ⟨⟨blockSize_pos alg, Nat.zero_mod _⟩, fun _ => initialHash_legalWords alg, hw⟩

theorem updateEngine_legal {s : State} (bytes : List Byte) (hacc : s.phase.accepting = true) (h : Legal s) :
    Legal (updateEngine bytes s) := by
  obtain ⟨hfill, hhash, hwf⟩ := absorbBytes_legal bytes hacc h
  rw [updateEngine_accepting bytes s hacc]
  rw [FillLegal, absorbBytes_phase, hacc] at hfill
  rw [hashLegal_iff, absorbBytes_phase] at hhash
  exact ⟨hfill, fun _ => hhash (Phase.ne_unconfigured_of_accepting hacc), hwf⟩

theorem finalizeEngine_legal {s : State} (hacc : s.phase.accepting = true) (h : Legal s) : Legal (finalizeEngine s) := by
  have hwords := (hashLegal_iff s).1 h.hash (Phase.ne_unconfigured_of_accepting hacc)
  have hpad : LegalWords s.alg (padAndFinish s).h :=
    padAndFinish_h_keeps (P := LegalWords s.alg) (fun blk _ hw => compressHash_legalWords hw blk) hwords
  rw [finalizeEngine_accepting s hacc]
  rw [← padAndFinish_alg s] at hpad
  exact ⟨rfl, fun _ => hpad, padAndFinish_wf s h.memory⟩

/-- Settles O41: by what a step can do to the registers of R33. -/
theorem stepKeepsLegalStates : Obligations.StepKeepsLegalStates := by
  intro s t h e
  have hrest (rest : List HostMove) : Legal { s with host := rest } := ⟨h.fill, h.hash, h.memory⟩
  rcases step_hashing_cases e with hst | ⟨rest, rfl | ⟨alg, rfl⟩ | ⟨hacc, bytes, rfl⟩ | ⟨hacc, rfl⟩⟩
  · exact h.congr hst
  · exact takeReset_legal h.memory
  · exact initEngine_legal alg h.memory
  · exact updateEngine_legal bytes hacc (hrest rest)
  · exact finalizeEngine_legal hacc (hrest rest)

/-! ## The message a state stands for (R41, R98, R99) -/

theorem StandsForMessage.congr {s t : State} (h : StandsForMessage s) (hst : SameHashing s t) : StandsForMessage t := by
  obtain ⟨⟨halg, hh, hlen, hbuf, hfill⟩, hphase, hpad⟩ := hst
  rcases h with hun | ⟨msg, ⟨h1, h2, h3, h4, h5⟩ | ⟨h1, h2, h3, h4⟩⟩
  · exact .inl (hphase.trans hun)
  · exact .inr ⟨msg, .inl ⟨by rwa [hphase], by rwa [hlen], by rwa [hfill, halg], by rwa [hh, halg],
      by rwa [hbuf, hfill, halg]⟩⟩
  · exact .inr ⟨msg, .inr ⟨by rwa [hphase], by rwa [hlen], by rwa [hfill], by rwa [hh, hpad, halg]⟩⟩

theorem StandsForMessage.exists_absorbed {s : State} (h : StandsForMessage s) (hacc : s.phase.accepting = true) :
    ∃ msg, Absorbed s msg := by
  rcases h with hun | ⟨msg, habs | hfin⟩
  · rw [hun] at hacc; cases hacc
  · exact ⟨msg, habs⟩
  · rw [hfin.phase] at hacc; cases hacc

theorem finalizeEngine_wf {s : State} (hw : s.buf.wf) (hacc : s.phase.accepting = true) : (finalizeEngine s).buf.wf := by
  rw [finalizeEngine_accepting s hacc]
  exact padAndFinish_wf s hw

/-- Settles O43: reset stands for no message, INIT for the empty one, UPDATE extends it, FINALIZE finishes it, and nothing else
writes the registers that hold it. -/
theorem stepKeepsStandingForAMessage : Obligations.StepKeepsStandingForAMessage := by
  intro s t hw h e
  rcases step_hashing_cases e with hst | ⟨rest, rfl | ⟨alg, rfl⟩ | ⟨hacc, bytes, rfl⟩ | ⟨hacc, rfl⟩⟩
  · exact ⟨hst.buf ▸ hw, h.congr hst⟩
  · exact ⟨hw, .inl rfl⟩
  · exact ⟨hw, .inr ⟨[], .inl (initEngine_absorbed alg _)⟩⟩
  · obtain ⟨msg, habs⟩ := h.exists_absorbed hacc
    obtain ⟨hw', habs'⟩ := updateEngine_absorbed bytes (s := { s with host := rest }) hw (habs.withHost rest)
    exact ⟨hw', .inr ⟨msg ++ bytes, .inl habs'⟩⟩
  · obtain ⟨msg, habs⟩ := h.exists_absorbed hacc
    exact ⟨finalizeEngine_wf hw hacc,
      .inr ⟨msg, .inr (finalizeEngine_finished (s := { s with host := rest }) hw (habs.withHost rest))⟩⟩

/-- Settles O42: in phase 0 legality asks only for FILL = 0 and a memory in canonical form. -/
theorem resetStateIsLegal : Obligations.ResetStateIsLegal :=
  ⟨⟨rfl, fun h => absurd rfl h, by decide⟩, .inl rfl⟩

/-! ## The reset values and the reset event (R32; 70_reset_and_hazards.md R280 to R282) -/

/-- Settles O10: a closed fact. -/
theorem resetStateHasTheSpecValues : Obligations.ResetStateHasTheSpecValues := by
  unfold Obligations.ResetStateHasTheSpecValues
  decide

/-- Settles O9: the step of a reset event is `takeReset`. -/
theorem resetEventSetsTheResetValues : Obligations.ResetEventSetsTheResetValues := by
  intro s rest hh
  obtain ⟨t, e⟩ := step_eq_next s
  cases step_reset hh e
  exact ⟨_, e, rfl, rfl, rfl, rfl, rfl, rfl, rfl, rfl, rfl, rfl⟩

/-! ## Who writes ALG and H (R21, R33.5) -/

/-- Settles O38: by what the step of a reset event and of a command word can do. -/
theorem onlyInitAndResetWriteAlg : Obligations.OnlyInitAndResetWriteAlg := by
  intro s t m rest hh e
  cases m with
  | reset =>
    cases step_reset hh e
    exact ⟨rfl, nofun, fun h => absurd rfl h⟩
  | command w =>
    suffices hw : t.padLimit128 = s.padLimit128 ∧ (∀ alg, decode w = .command (initCommand alg) → t.alg = alg) ∧
        ((∀ alg, decode w ≠ .command (initCommand alg)) → t.alg = s.alg) by
      obtain ⟨hpad, hinit, hother⟩ := hw
      refine ⟨hpad, fun w' alg hm hd => ?_, fun _ hno => hother fun alg => hno w alg rfl⟩
      cases hm
      exact hinit alg hd
    rcases step_command_cases s t w rest hh e with ⟨er, -, rfl, hno, -⟩ | ⟨d, -, hcase⟩
    · exact ⟨rfl, fun alg hd => absurd hd (hno alg), fun _ => rfl⟩
    · rcases hcase with ⟨a, hw, -, rfl⟩ | ⟨_, b, hw, hb, -, -, rfl⟩ | ⟨hw, -, -, rfl⟩ | ⟨_, hw, -, -, -, rfl⟩ |
        ⟨hw, rfl⟩
      case inl =>
        refine ⟨rfl, fun alg hd => ?_, fun h => absurd hw (h a)⟩
        exact initCommand_inj (Decoded.command.inj (hw.symm.trans hd))
      case inr.inl =>
        obtain ⟨hno, -⟩ := updatePayload_ne hb
        simp [hw, hno]
      all_goals simp [hw, ne_initCommand]

/-- Settles O40: of the steps that write H or ALG none goes from Finalized to Finalized. -/
theorem digestIsImmutableWhileFinalized : Obligations.DigestIsImmutableWhileFinalized := by
  intro s t hs e ht
  suffices hst : SameHashing s t from ⟨hst.h, hst.alg, by rw [hst.h, hst.alg]⟩
  rcases step_hashing_cases e with hst | ⟨rest, rfl | ⟨alg, rfl⟩ | ⟨hacc, -⟩ | ⟨hacc, -⟩⟩
  · exact hst
  · cases ht
  · cases ht
  all_goals rw [hs] at hacc; cases hacc

end Sys2Proof.Machine
end

section
/-! SUPPORT and PROOFS. The encoding, 30_encoding.md: the encoder and the decoder are inverse to each other (R60 to R67), the
opcode table's match and mask say the same as the decoder, and how many words are legal commands (R70). -/

namespace Sys2Proof.Machine

/-! ## The encoder and the decoder are inverse (R66) -/

/-- Settles O2: the decoder reads back the fields the encoder puts together. -/
theorem decodeOfEncodeIsTheCommand : Obligations.DecodeOfEncodeIsTheCommand :=
  fun _ hi => decode_encode hi

/-- The UPDATE command of nb bytes (R65). -/
def updateForm (nb : Fin 5) (data : Word32) : Instr :=
  [Instr.update data, .updateB0 data, .updateB0B1 data, .updateB0B1B2 data, .updateB0B1B2B3 data].get nb

theorem encode_updateForm (nb : Fin 5) (data : Word32) :
    (updateForm nb data).WellFormed ∧ encode (updateForm nb data) = commandWord 2 (BitVec.ofNat 8 nb) data := by
  fin_cases nb <;> exact ⟨rfl, rfl⟩

theorem updatePayload_updateForm (nb : Fin 5) (data : Word32) :
    updatePayload (updateForm nb data) = some (payload nb data) := by
  fin_cases nb <;> rfl

/-- The commands by opcode. -/
theorem instr_cases (i : Instr) :
    (∃ alg, i = initCommand alg) ∨ (∃ nb data, i = updateForm nb data) ∨ i = .finalize ∨ (∃ idx, i = .rdigIdx idx) ∨
      i = .rstat := by
  cases i with
  | initMd4 => exact .inl ⟨.md4, rfl⟩
  | initMd5 => exact .inl ⟨.md5, rfl⟩
  | initSha1 => exact .inl ⟨.sha1, rfl⟩
  | initSha224 => exact .inl ⟨.sha224, rfl⟩
  | initSha256 => exact .inl ⟨.sha256, rfl⟩
  | initSha384 => exact .inl ⟨.sha384, rfl⟩
  | initSha512 => exact .inl ⟨.sha512, rfl⟩
  | update data => exact .inr (.inl ⟨0, data, rfl⟩)
  | updateB0 data => exact .inr (.inl ⟨1, data, rfl⟩)
  | updateB0B1 data => exact .inr (.inl ⟨2, data, rfl⟩)
  | updateB0B1B2 data => exact .inr (.inl ⟨3, data, rfl⟩)
  | updateB0B1B2B3 data => exact .inr (.inl ⟨4, data, rfl⟩)
  | finalize => exact .inr (.inr (.inl rfl))
  | rdigIdx idx => exact .inr (.inr (.inr (.inl ⟨idx, rfl⟩)))
  | rstat => exact .inr (.inr (.inr (.inr rfl)))

/-- The word made of these fields is the word of the well-formed command i. -/
def IsWordOf (opc : BitVec 4) (arg : BitVec 8) (data : Word32) (i : Instr) : Prop :=
  i.WellFormed ∧ encode i = commandWord opc arg data

theorem withZeroData_command {opc : BitVec 4} {arg : BitVec 8} {data : Word32} {i j : Instr}
    (h : withZeroData data i = .command j) (hi : IsWordOf opc arg 0 i) : IsWordOf opc arg data j := by
  unfold withZeroData at h
  split_ifs at h with hdata
  cases h
  exact hdata ▸ hi

theorem initCommand_isWordOf (alg : Alg) : IsWordOf 1 (alg.code.setWidth 8) 0 (initCommand alg) := by
  cases alg <;> exact ⟨rfl, rfl⟩

theorem decodeInit_command {arg : BitVec 8} {data : Word32} {i : Instr} (h : decodeInit arg data = .command i) :
    IsWordOf 1 arg data i := by
  have harg : arg.toNat ≤ 6 := by
    by_contra harg
    cases (decodeInit_argOutOfRange harg data).symm.trans h
  obtain ⟨alg, hcode⟩ := exists_alg_code harg
  have harg' : alg.code.setWidth 8 = arg :=
    BitVec.eq_of_toNat_eq ((BitVec.toNat_setWidth_of_le (by decide)).trans hcode)
  rw [decodeInit_code hcode] at h
  exact withZeroData_command h (harg' ▸ initCommand_isWordOf alg)

theorem decodeUpdate_command {arg : BitVec 8} {data : Word32} {i : Instr} (h : decodeUpdate arg data = .command i) :
    IsWordOf 2 arg data i := by
  unfold decodeUpdate at h
  have isWord {nb : BitVec 8} (hnb : arg.toNat = nb.toNat) {j : Instr} (hj : IsWordOf 2 nb data j) :
      IsWordOf 2 arg data j := BitVec.eq_of_toNat_eq hnb ▸ hj
  split at h <;> cases h
  case h_1 harg => exact isWord (nb := 0) harg ⟨rfl, rfl⟩
  case h_2 harg => exact isWord (nb := 1) harg ⟨rfl, rfl⟩
  case h_3 harg => exact isWord (nb := 2) harg ⟨rfl, rfl⟩
  case h_4 harg => exact isWord (nb := 3) harg ⟨rfl, rfl⟩
  case h_5 harg => exact isWord (nb := 4) harg ⟨rfl, rfl⟩

theorem decodeNoOperand_command {opc : BitVec 4} {arg : BitVec 8} {data : Word32} {i j : Instr}
    (h : decodeNoOperand arg data i = .command j) (hi : IsWordOf opc 0 0 i) : IsWordOf opc arg data j := by
  unfold decodeNoOperand at h
  split_ifs at h with harg
  exact withZeroData_command h (harg ▸ hi)

theorem decodeReadDigest_command {arg : BitVec 8} {data : Word32} {i : Instr}
    (h : decodeReadDigest arg data = .command i) : IsWordOf 4 arg data i := by
  unfold decodeReadDigest at h
  split_ifs at h with harg
  exact withZeroData_command h ⟨decide_eq_true harg, rfl⟩

/-- Settles O3: the reserved fields of a word that decodes are 0, so the word is made of OPC, ARG and DATA; under each opcode the
command the decoder gives is the one whose word has this ARG and DATA. -/
theorem encodeOfDecodeIsTheWord : Obligations.EncodeOfDecodeIsTheWord := by
  intro w i h
  by_cases hrsv : rsv1Field w ≠ 0 ∨ rsv2Field w ≠ 0
  · cases (decode_reserved hrsv).symm.trans h
  suffices hi : IsWordOf (opcField w) (argField w) (dataField w) i by
    obtain ⟨hwf, henc⟩ := hi
    simp only [not_or, not_not] at hrsv
    exact ⟨hwf, henc.trans (commandWord_fields w hrsv.1 hrsv.2)⟩
  have isWord {opc : BitVec 4} (hopc : (opcField w).toNat = opc.toNat) (hi : IsWordOf opc (argField w) (dataField w) i) :
      IsWordOf (opcField w) (argField w) (dataField w) i := BitVec.eq_of_toNat_eq hopc ▸ hi
  by_cases h1 : (opcField w).toNat = 1
  · exact isWord (opc := 1) h1 (decodeInit_command ((decode_opc_init hrsv h1).symm.trans h))
  by_cases h2 : (opcField w).toNat = 2
  · exact isWord (opc := 2) h2 (decodeUpdate_command ((decode_opc_update hrsv h2).symm.trans h))
  by_cases h3 : (opcField w).toNat = 3
  · exact isWord (opc := 3) h3 (decodeNoOperand_command ((decode_opc_finalize hrsv h3).symm.trans h) ⟨rfl, rfl⟩)
  by_cases h4 : (opcField w).toNat = 4
  · exact isWord (opc := 4) h4 (decodeReadDigest_command ((decode_opc_readDigest hrsv h4).symm.trans h))
  by_cases h5 : (opcField w).toNat = 5
  · exact isWord (opc := 5) h5 (decodeNoOperand_command ((decode_opc_readStatus hrsv h5).symm.trans h) ⟨rfl, rfl⟩)
  cases (decode_opc_reserved hrsv (by omega)).symm.trans h

/-! ## The match and mask of the opcode table (R70) -/

/-- A mask that fixes OPC and the reserved fields, and the bits of ARG and DATA that `arg` and `data` have set: the form of every
mask of the table. -/
def fieldMask (arg : BitVec 8) (data : Word32) : Word64 := 0xFF00FFFF00000000 ||| commandWord 0 arg data

theorem fieldMask_getLsbD (arg : BitVec 8) (data : Word32) {i : Nat} (hi : i < 64) :
    (fieldMask arg data).getLsbD i =
      if i < 32 then data.getLsbD i else if i < 48 then true else if i < 56 then arg.getLsbD (i - 48) else true := by
  have hhigh : (0xFF00FFFF00000000 : Word64).getLsbD i = (decide (32 ≤ i ∧ i < 48) || decide (56 ≤ i)) := by
    revert i
    decide
  rw [fieldMask, BitVec.getLsbD_or, hhigh, commandWord_getLsbD 0 arg data i hi]
  split_ifs <;> simp <;> omega

theorem commandWord_and_fieldMask (opc : BitVec 4) (arg a : BitVec 8) (data d : Word32) :
    commandWord opc arg data &&& fieldMask a d = commandWord opc (arg &&& a) (data &&& d) := by
  refine BitVec.eq_of_getLsbD_eq fun i hi => ?_
  rw [BitVec.getLsbD_and, commandWord_getLsbD _ _ _ i hi, commandWord_getLsbD _ _ _ i hi, fieldMask_getLsbD _ _ hi]
  split_ifs <;> simp

theorem rsv1Field_fieldMask (a : BitVec 8) (d : Word32) : rsv1Field (fieldMask a d) = BitVec.allOnes 4 := by
  have hcommand : (commandWord 0 a d).extractLsb' 56 4 = 0 := rsv1Field_commandWord 0 a d
  rw [fieldMask, rsv1Field, BitVec.extractLsb'_or, hcommand]
  decide

theorem rsv2Field_fieldMask (a : BitVec 8) (d : Word32) : rsv2Field (fieldMask a d) = BitVec.allOnes 16 := by
  have hcommand : (commandWord 0 a d).extractLsb' 32 16 = 0 := rsv2Field_commandWord 0 a d
  rw [fieldMask, rsv2Field, BitVec.extractLsb'_or, hcommand]
  decide

theorem rsv1Field_and (w v : Word64) : rsv1Field (w &&& v) = rsv1Field w &&& rsv1Field v := BitVec.extractLsb'_and

theorem rsv2Field_and (w v : Word64) : rsv2Field (w &&& v) = rsv2Field w &&& rsv2Field v := BitVec.extractLsb'_and

/-- The words of a row: the reserved fields are 0, OPC is the row's, and ARG and DATA match where the mask fixes them. -/
theorem and_fieldMask_eq_iff {w : Word64} {opc : BitVec 4} {arg a : BitVec 8} {data d : Word32} :
    w &&& fieldMask a d = commandWord opc arg data ↔
      ∃ arg' data', w = commandWord opc arg' data' ∧ arg' &&& a = arg ∧ data' &&& d = data := by
  constructor
  · intro h
    have h1 : rsv1Field w = 0 := by
      simpa only [rsv1Field_and, rsv1Field_fieldMask, BitVec.and_allOnes, rsv1Field_commandWord] using congrArg rsv1Field h
    have h2 : rsv2Field w = 0 := by
      simpa only [rsv2Field_and, rsv2Field_fieldMask, BitVec.and_allOnes, rsv2Field_commandWord] using congrArg rsv2Field h
    have hw := commandWord_fields w h1 h2
    rw [← hw, commandWord_and_fieldMask] at h
    have hopc := congrArg opcField h
    have harg := congrArg argField h
    have hdata := congrArg dataField h
    simp only [opcField_commandWord, argField_commandWord, dataField_commandWord] at hopc harg hdata
    exact ⟨_, _, hopc ▸ hw.symm, harg, hdata⟩
  · rintro ⟨arg', data', rfl, rfl, rfl⟩
    exact commandWord_and_fieldMask ..

/-- ARG below 64 is ARG with its two high bits 0 (R67). -/
theorem and_0xC0_eq_zero_iff (arg : BitVec 8) : arg &&& 0xC0 = 0 ↔ arg.toNat < 64 := by
  revert arg
  decide

theorem mem_fixedRow_iff {w m : Word64} : w &&& 0xFFFFFFFFFFFFFFFF = m ↔ m = w := by
  rw [show (0xFFFFFFFFFFFFFFFF : Word64) = BitVec.allOnes 64 by decide, BitVec.and_allOnes, eq_comm]

theorem tableRow_updateForm (nb : Fin 5) (data : Word32) :
    tableRow (updateForm nb data) = (commandWord 2 (BitVec.ofNat 8 nb) 0, 0xFFFFFFFF00000000) := by
  have hfree : tableRow (updateForm nb data) = tableRow (updateForm nb 0) := by fin_cases nb <;> rfl
  rw [hfree]
  clear hfree data
  revert nb
  decide

theorem tableRow_initCommand (alg : Alg) :
    tableRow (initCommand alg) = (encode (initCommand alg), 0xFFFFFFFFFFFFFFFF) := by
  cases alg <;> decide

/-- A row of UPDATE leaves DATA free. -/
theorem mem_updateRow_iff {nb : BitVec 8} {w : Word64} :
    w &&& 0xFFFFFFFF00000000 = commandWord 2 nb 0 ↔ ∃ data, commandWord 2 nb data = w := by
  rw [show (0xFFFFFFFF00000000 : Word64) = fieldMask (BitVec.allOnes 8) 0 by decide, and_fieldMask_eq_iff]
  simp only [BitVec.and_allOnes]
  constructor
  · rintro ⟨_, data, rfl, rfl, -⟩
    exact ⟨data, rfl⟩
  · rintro ⟨data, rfl⟩
    exact ⟨nb, data, rfl, rfl, BitVec.and_zero⟩

/-- The row of READ_DIGEST leaves the low six bits of ARG free. -/
theorem mem_readDigestRow_iff {w : Word64} :
    w &&& 0xFFC0FFFFFFFFFFFF = 0x4000000000000000 ↔ ∃ idx : BitVec 8, idx.toNat < 64 ∧ commandWord 4 idx 0 = w := by
  rw [show (0xFFC0FFFFFFFFFFFF : Word64) = fieldMask 0xC0 (BitVec.allOnes 32) by decide,
    show (0x4000000000000000 : Word64) = commandWord 4 0 0 by decide, and_fieldMask_eq_iff]
  simp only [and_0xC0_eq_zero_iff, BitVec.and_allOnes]
  constructor
  · rintro ⟨idx, data, rfl, hidx, rfl⟩
    exact ⟨idx, hidx, rfl⟩
  · rintro ⟨idx, hidx, rfl⟩
    exact ⟨idx, 0, rfl, hidx, rfl⟩

theorem encode_mem_row {i : Instr} (hi : i.WellFormed) : encode i &&& (tableRow i).2 = (tableRow i).1 := by
  rcases instr_cases i with ⟨alg, rfl⟩ | ⟨nb, data, rfl⟩ | rfl | ⟨idx, rfl⟩ | rfl
  · rw [tableRow_initCommand]
    exact mem_fixedRow_iff.2 rfl
  · rw [tableRow_updateForm, (encode_updateForm nb data).2]
    exact mem_updateRow_iff.2 ⟨data, rfl⟩
  · decide
  · exact mem_readDigestRow_iff.2 ⟨idx, of_decide_eq_true hi, rfl⟩
  · decide

/-- A word in the row of i is the word of a command of that row, with its own DATA or index. -/
theorem exists_encode_of_mem_row {w : Word64} {i : Instr} (h : w &&& (tableRow i).2 = (tableRow i).1) :
    ∃ j, j.WellFormed ∧ encode j = w ∧ tableRow j = tableRow i := by
  rcases instr_cases i with ⟨alg, rfl⟩ | ⟨nb, data, rfl⟩ | rfl | ⟨idx, rfl⟩ | rfl
  · rw [tableRow_initCommand] at h
    exact ⟨_, initCommand_wellFormed alg, mem_fixedRow_iff.1 h, rfl⟩
  · rw [tableRow_updateForm] at h
    obtain ⟨data', hw⟩ := mem_updateRow_iff.1 h
    obtain ⟨hwf, henc⟩ := encode_updateForm nb data'
    exact ⟨updateForm nb data', hwf, henc.trans hw, by rw [tableRow_updateForm, tableRow_updateForm]⟩
  · exact ⟨.finalize, rfl, .trans (by decide) (mem_fixedRow_iff.1 h), rfl⟩
  · obtain ⟨idx', hidx, hw⟩ := mem_readDigestRow_iff.1 h
    exact ⟨.rdigIdx idx', decide_eq_true hidx, hw, rfl⟩
  · exact ⟨.rstat, rfl, .trans (by decide) (mem_fixedRow_iff.1 h), rfl⟩

/-- Settles O4: a word that decodes is the word of its command, and a word in a row is the word of a command of that row. -/
theorem decodeAgreesWithTheOpcodeTable : Obligations.DecodeAgreesWithTheOpcodeTable := by
  refine ⟨fun w i h => ?_, fun w i h => ?_⟩
  · obtain ⟨hi, rfl⟩ := encodeOfDecodeIsTheWord w i h
    exact encode_mem_row hi
  · obtain ⟨j, hj, rfl, hrow⟩ := exists_encode_of_mem_row h
    exact ⟨j, decode_encode hj, hrow⟩

/-! ## How many words are legal commands (R70) -/

/-- A number for each legal command: the INIT codes, the UPDATE forms with their DATA, FINALIZE, the digest indexes and
READ_STATUS. -/
abbrev CommandNumber := Fin 7 ⊕ (Fin 5 × Word32) ⊕ Fin 1 ⊕ Fin 64 ⊕ Fin 1

/-- The command of a number. -/
def ofNumber : CommandNumber → Instr
  | .inl code => [Instr.initMd4, .initMd5, .initSha1, .initSha224, .initSha256, .initSha384, .initSha512].get code
  | .inr (.inl (nb, data)) => updateForm nb data
  | .inr (.inr (.inl _)) => .finalize
  | .inr (.inr (.inr (.inl idx))) => .rdigIdx (BitVec.ofNat 8 idx)
  | .inr (.inr (.inr (.inr _))) => .rstat

/-- The number of a command; of a READ_DIGEST by its index modulo 64. -/
def toNumber : Instr → CommandNumber
  | .initMd4 => .inl 0
  | .initMd5 => .inl 1
  | .initSha1 => .inl 2
  | .initSha224 => .inl 3
  | .initSha256 => .inl 4
  | .initSha384 => .inl 5
  | .initSha512 => .inl 6
  | .update data => .inr (.inl (0, data))
  | .updateB0 data => .inr (.inl (1, data))
  | .updateB0B1 data => .inr (.inl (2, data))
  | .updateB0B1B2 data => .inr (.inl (3, data))
  | .updateB0B1B2B3 data => .inr (.inl (4, data))
  | .finalize => .inr (.inr (.inl 0))
  | .rdigIdx idx => .inr (.inr (.inr (.inl (Fin.ofNat 64 idx.toNat))))
  | .rstat => .inr (.inr (.inr (.inr 0)))

theorem ofNumber_readDigest (idx : Fin 64) :
    toNumber (.rdigIdx (BitVec.ofNat 8 idx)) = .inr (.inr (.inr (.inl idx))) ∧
      (Instr.rdigIdx (BitVec.ofNat 8 idx)).WellFormed := by
  revert idx
  decide

theorem toNumber_ofNumber (c : CommandNumber) : toNumber (ofNumber c) = c ∧ (ofNumber c).WellFormed := by
  match c with
  | .inl code => fin_cases code <;> exact ⟨rfl, rfl⟩
  | .inr (.inl (nb, data)) => fin_cases nb <;> exact ⟨rfl, rfl⟩
  | .inr (.inr (.inl 0)) => exact ⟨rfl, rfl⟩
  | .inr (.inr (.inr (.inl idx))) => exact ofNumber_readDigest idx
  | .inr (.inr (.inr (.inr 0))) => exact ⟨rfl, rfl⟩

theorem ofNumber_toNumber {i : Instr} (hi : i.WellFormed) : ofNumber (toNumber i) = i := by
  cases i with
  | rdigIdx idx =>
    have hidx : idx.toNat < 64 := of_decide_eq_true hi
    simp [toNumber, ofNumber, Nat.mod_eq_of_lt hidx]
  | _ => rfl

/-- The legal word of a number. -/
def legalWord (c : CommandNumber) : { w : Word64 // ∃ i, decode w = .command i } :=
  ⟨encode (ofNumber c), ofNumber c, decode_encode (toNumber_ofNumber c).2⟩

theorem legalWord_bijective : Function.Bijective legalWord := by
  constructor
  · intro c d h
    have hword : encode (ofNumber c) = encode (ofNumber d) := congrArg Subtype.val h
    have hdecode : Decoded.command (ofNumber c) = .command (ofNumber d) := by
      rw [← decode_encode (toNumber_ofNumber c).2, hword, decode_encode (toNumber_ofNumber d).2]
    rw [← (toNumber_ofNumber c).1, ← (toNumber_ofNumber d).1, Decoded.command.inj hdecode]
  · rintro ⟨w, i, h⟩
    obtain ⟨hi, hw⟩ := encodeOfDecodeIsTheWord w i h
    have hword : encode (ofNumber (toNumber i)) = w := by rw [ofNumber_toNumber hi, hw]
    exact ⟨toNumber i, Subtype.ext hword⟩

theorem card_word32 : Nat.card Word32 = 2 ^ 32 :=
  (Nat.card_congr BitVec.equivFin.toEquiv).trans (Nat.card_fin _)

/-- Settles O6: the legal words are numbered by `CommandNumber`, a sum of five ranges. -/
theorem legalCommandWordCount : Obligations.LegalCommandWordCount := by
  rw [Obligations.LegalCommandWordCount, ← Nat.card_eq_of_bijective legalWord legalWord_bijective]
  simp only [Nat.card_sum, Nat.card_prod, card_word32, Nat.card_fin, Nat.add_assoc]

/-- Settles O1: closed facts, one for each listed word. -/
theorem decodeReadsTheListedWords : Obligations.DecodeReadsTheListedWords := by
  unfold Obligations.DecodeReadsTheListedWords
  decide

end Sys2Proof.Machine
end

section
/-! SUPPORT and PROOFS. One step, 40_engine_commands.md R80 and R81, and the block buffer, 20_memory.md: a written byte
reads back, and in the canonical form equal contents are equal data (R40). -/

namespace Sys2Proof.Machine

/-! ## One step (R80, R81) -/

theorem step_idle {s : State} (hh : s.host = []) : step s = .next s := by
  obtain ⟨-, e⟩ | ⟨_, h, -⟩ | ⟨_, _, _, h, -⟩ | ⟨_, _, _, h, -⟩ := step_cases s
  case inl => exact e
  all_goals cases hh.symm.trans h

theorem step_reset_event {s : State} {rest : List HostMove} (hh : s.host = .reset :: rest) :
    step s = .next (takeReset { s with host := rest }) := by
  obtain ⟨t, e⟩ := step_eq_next s
  rw [e, step_reset hh e]

theorem tableWord_toNat (w : Word64) : tableWord 64 w.toNat = w := by
  rw [tableWord, Nat.mod_eq_of_lt w.isLt, BitVec.ofNat_toNat, BitVec.setWidth_eq]

/-- Settles O7: the word the host issues next is the word `withFetchWord` puts before its moves. -/
theorem stepRunsTheDecodedCommand : Obligations.StepRunsTheDecodedCommand := by
  refine ⟨fun s w rest i hh hw => step_decoded hh hw, fun s w i hw => ?_⟩
  rw [State.withFetchWord, tableWord_toNat]
  exact step_decoded (issueCommand_host w s) hw

/-- Settles O11: by the kinds of step. -/
theorem everyStepAnswersANextState : Obligations.EveryStepAnswersANextState := step_eq_next

/-- INIT is precise: this is the whole of what it writes (R81). -/
theorem exec_initCommand_eq (alg : Alg) (s : State) : exec (initCommand alg) s = .next { s with
    alg := alg, h := initialHash alg, len := 0, fill := 0, phase := .fresh, lastErr := .ok, errSticky := false,
    responses := s.responses ++ [⟨.ok, 0⟩] } := exec_initCommand alg s

/-- Settles O12: for each algorithm. -/
theorem initPutsTheEngineInFresh : Obligations.InitPutsTheEngineInFresh :=
  fun s => ⟨exec_initCommand_eq .md4 s, exec_initCommand_eq .md5 s, exec_initCommand_eq .sha1 s,
    exec_initCommand_eq .sha224 s, exec_initCommand_eq .sha256 s, exec_initCommand_eq .sha384 s,
    exec_initCommand_eq .sha512 s⟩

/-! ## The block buffer -/

/-- Settles O48: by the read after a write. -/
theorem bufferReadAfterWrite : Obligations.BufferReadAfterWrite := by
  intro m a b v hm
  refine ⟨?_, fun hab => read_write_ne m a b v hab.symm⟩
  rw [read_write m a a v hm, if_pos rfl]

theorem lookup_head (k : Nat) (c : Byte) (m : Memory) : Memory.lookup ((k, c) :: m) k = c := if_pos rfl

theorem lookup_tail {k a : Nat} (h : k ≠ a) (c : Byte) (m : Memory) : Memory.lookup ((k, c) :: m) a = m.lookup a :=
  if_neg h

theorem lookup_below {k a : Nat} {c : Byte} {m : Memory} (hm : Memory.wf ((k, c) :: m)) (ha : a < k) :
    Memory.lookup ((k, c) :: m) a = Memory.unlisted := by
  refine lookup_of_all_above _ a fun e he => ?_
  rcases List.mem_cons.1 he with rfl | he
  · exact ha
  · exact ha.trans ((List.pairwise_cons.1 hm.1).1 e he)

theorem wf_tail {e : Host.Cell} {m : Memory} (hm : Memory.wf (e :: m)) : m.wf :=
  ⟨(List.pairwise_cons.1 hm.1).2, fun c hc => hm.2 c (List.mem_cons_of_mem e hc)⟩

/-- Two memories in canonical form that read the same list the same first address: the one of the smaller first address lists a
byte there that is not the unlisted one. -/
theorem first_address_le {k l : Nat} {c d : Byte} {m n : Memory} (hm : Memory.wf ((k, c) :: m))
    (hn : Memory.wf ((l, d) :: n)) (h : ∀ a, Memory.lookup ((k, c) :: m) a = Memory.lookup ((l, d) :: n) a) : l ≤ k := by
  by_contra hkl
  refine (hm.2 (k, c) (List.mem_cons_self ..)).2 ?_
  rw [← lookup_below hn (by omega : k < l), ← h k, lookup_head]

theorem eq_of_lookup_eq : ∀ {m n : Memory}, m.wf → n.wf → (∀ a, m.lookup a = n.lookup a) → m = n
  | [], [], _, _, _ => rfl
  | [], (l, d) :: n, _, hn, h =>
    absurd ((lookup_head l d n).symm.trans (h l).symm) (hn.2 (l, d) (List.mem_cons_self ..)).2
  | (k, c) :: m, [], hm, _, h =>
    absurd ((lookup_head k c m).symm.trans (h k)) (hm.2 (k, c) (List.mem_cons_self ..)).2
  | (k, c) :: m, (l, d) :: n, hm, hn, h => by
    obtain rfl : k = l := Nat.le_antisymm (first_address_le hn hm fun a => (h a).symm) (first_address_le hm hn h)
    obtain rfl : c = d := by rw [← lookup_head k c m, h k, lookup_head]
    have htail : ∀ a, Memory.lookup m a = Memory.lookup n a := fun a => by
      by_cases ha : k = a
      · subst ha
        rw [lookup_of_all_above m k (List.pairwise_cons.1 hm.1).1, lookup_of_all_above n k (List.pairwise_cons.1 hn.1).1]
      · rw [← lookup_tail ha c m, h a, lookup_tail ha]
    rw [eq_of_lookup_eq (wf_tail hm) (wf_tail hn) htail]

theorem lookup_beyond {m : Memory} (hm : m.wf) {a : Nat} (ha : 128 ≤ a) : m.lookup a = Memory.unlisted := by
  induction m with
  | nil => rfl
  | cons e m ih =>
    have he := (hm.2 e (List.mem_cons_self ..)).1
    rw [lookup_tail (by omega), ih (wf_tail hm)]

/-- Settles O49: equal bytes at the 128 addresses are equal bytes at every number, and the lists are compared from their first
addresses on. -/
theorem bufferKeepsItsCanonicalForm : Obligations.BufferKeepsItsCanonicalForm := by
  refine ⟨write_wf, fun m j bytes => writeBytes_wf bytes m j, zeroFill_wf, fun m n hm hn h => ?_⟩
  refine eq_of_lookup_eq hm hn fun a => ?_
  rcases Nat.lt_or_ge a 128 with ha | ha
  · simpa [Memory.read, Nat.mod_eq_of_lt ha] using h (BitVec.ofNat 7 a)
  · rw [lookup_beyond hm ha, lookup_beyond hn ha]

end Sys2Proof.Machine
end

section
/-! SUPPORT and PROOFS. UPDATE, 40_engine_commands.md section 3: its frame, the addresses of its payload (20_memory.md R41), the
message it extends (R83), and that the splitting of the bytes does not matter (R85). -/

namespace Sys2Proof.Machine

/-! ## The frame and the addresses of a payload (R34, R41) -/

theorem exec_update_next {i : Instr} {bytes : List Byte} {s t : State} (hi : updatePayload i = some bytes)
    (e : exec i s = .next t) : t = updateEngine bytes s := by
  cases (exec_update hi s).symm.trans e
  rfl

/-- A compression of the state's algorithm keeps an unused word of H, whatever it is. -/
theorem compressHash_keeps_unused {alg : Alg} {j : Fin 8} (hj : alg.stateWords ≤ j.val) {w : Word64} (blk : List Byte)
    (h : HashFile) (hw : h[j] = w) : (compressHash alg h blk)[j] = w := (compressHash_high alg h blk j hj).trans hw

theorem absorbBytes_h_unused (bytes : List Byte) (s : State) {j : Fin 8} (hj : s.alg.stateWords ≤ j.val) :
    (absorbBytes s bytes).h[j] = s.h[j] := by
  refine (absorbBytes_keeps (fun t => t.alg = s.alg ∧ t.h[j] = s.h[j]) (fun t b ⟨halg, hw⟩ => ?_) bytes s ⟨rfl, rfl⟩).2
  refine ⟨(absorb_alg t b).trans halg, ?_⟩
  exact absorb_h_keeps (P := fun h => h[j] = s.h[j]) (fun blk h => compressHash_keeps_unused (halg ▸ hj) blk h) b hw

/-- Bytes that do not fill the block leave H. -/
theorem absorbBytes_h_inside (bytes : List Byte) : ∀ {s : State}, s.fill.toNat + bytes.length < s.alg.blockSize →
    (absorbBytes s bytes).h = s.h := by
  induction bytes with
  | nil => exact fun _ => rfl
  | cons b bytes ih =>
    intro s hlen
    rw [List.length_cons] at hlen
    have hinside : s.fill.toNat + 1 ≠ s.alg.blockSize := by omega
    have hfill : (absorb s b).fill.toNat = s.fill.toNat + 1 := by rw [absorb_fill_eq_ite b (by omega), if_neg hinside]
    rw [absorbBytes_cons, ih (by rw [hfill, absorb_alg]; omega), absorb_inside s b hinside]

theorem absorbBytes_read_of_notMem {a : BitVec 7} (bytes : List Byte) : ∀ {s : State}, a ∉ absorbAddresses s bytes →
    (absorbBytes s bytes).buf.read a = s.buf.read a := by
  induction bytes with
  | nil => exact fun _ => rfl
  | cons b bytes ih =>
    intro s ha
    obtain ⟨hfirst, hrest⟩ := not_or.1 (mt List.mem_cons.2 ha)
    rw [absorbBytes_cons, ih hrest, absorb_buf, read_write_ne _ _ _ _ hfirst]

/-- Settles O16: by the frame of ABSORB, over the bytes of the payload. -/
theorem updateFrame : Obligations.UpdateFrame := by
  intro i bytes s t hi hacc e
  rw [exec_update_next hi e, updateEngine_accepting bytes s hacc]
  exact ⟨absorbBytes_alg s bytes, absorbBytes_errSticky s bytes, absorbBytes_padLimit128 s bytes, absorbBytes_host s bytes,
    absorbBytes_resets s bytes, fun _ => absorbBytes_h_unused bytes s, absorbBytes_h_inside bytes,
    fun _ => absorbBytes_read_of_notMem bytes⟩

/-- Settles O17: FILL goes up by one modulo the block size with each byte. -/
theorem payloadAddressesWrapAtTheBlock : Obligations.PayloadAddressesWrapAtTheBlock := by
  intro s bytes
  induction bytes generalizing s with
  | nil => exact fun _ => rfl
  | cons b bytes ih =>
    intro hs
    have hfill := absorb_fill s b hs
    have hnext := ih (absorb s b) (by rw [hfill, absorb_alg]; exact Nat.mod_lt _ (blockSize_pos _))
    rw [absorbAddresses, List.map_cons, hnext, hfill, absorb_alg, List.length_cons, List.range_succ_eq_map, List.map_cons,
      List.map_map]
    refine congrArg₂ List.cons (Nat.mod_eq_of_lt hs).symm (List.map_congr_left fun k _ => ?_)
    rw [Nat.mod_add_mod, Nat.add_assoc, Nat.add_comm 1]
    rfl

/-! ## The message an UPDATE extends (R83) -/

/-- Settles O18: an UPDATE absorbs the bytes of its payload one after the other. -/
theorem updateExtendsTheMessage : Obligations.UpdateExtendsTheMessage := by
  intro i bytes msg s hi hw h
  refine ⟨_, exec_update hi s, ?_, (updateEngine_absorbed bytes hw h).2⟩
  rw [updateEngine_accepting bytes s h.phase]
  rfl

/-! ## The splitting of the bytes (R85) -/

theorem SameBlock.symm {s t : State} (h : SameBlock s t) : SameBlock t s :=
  ⟨h.alg.symm, h.h.symm, h.len.symm, h.buf.symm, h.fill.symm⟩

theorem SameBlock.trans {s t u : State} (h : SameBlock s t) (h' : SameBlock t u) : SameBlock s u :=
  ⟨h'.alg.trans h.alg, h'.h.trans h.h, h'.len.trans h.len, h'.buf.trans h.buf, h'.fill.trans h.fill⟩

theorem withHost_sameBlock (s : State) (moves : List HostMove) : SameBlock s { s with host := moves } :=
  ⟨rfl, rfl, rfl, rfl, rfl⟩

/-- ABSORB reads no other register. -/
theorem SameBlock.absorb {s t : State} (h : SameBlock s t) (b : Byte) : SameBlock (absorb s b) (absorb t b) := by
  obtain ⟨halg, hh, hlen, hbuf, hfill⟩ := h
  by_cases hfull : s.fill.toNat + 1 = s.alg.blockSize
  · rw [absorb_full s b hfull, absorb_full t b (by rwa [hfill, halg])]
    exact ⟨halg, by simp only [halg, hh, hbuf, hfill], by simp only [hlen], by simp only [hbuf, hfill], rfl⟩
  · rw [absorb_inside s b hfull, absorb_inside t b (by rwa [hfill, halg])]
    exact ⟨halg, hh, by simp only [hlen], by simp only [hbuf, hfill], by simp only [hfill]⟩

theorem SameBlock.absorbBytes (bytes : List Byte) : ∀ {s t : State}, SameBlock s t →
    SameBlock (absorbBytes s bytes) (absorbBytes t bytes) := by
  induction bytes with
  | nil => exact id
  | cons b bytes ih => exact fun h => ih (h.absorb b)

/-- Besides its phase and its response, an UPDATE that is accepted is ABSORB over its payload. -/
theorem updateEngine_sameBlock (bytes : List Byte) {s : State} (hacc : s.phase.accepting = true) :
    SameBlock (absorbBytes s bytes) (updateEngine bytes s) := by
  rw [updateEngine_accepting bytes s hacc]
  exact ⟨rfl, rfl, rfl, rfl, rfl⟩

/-- UPDATE commands are ABSORB over the bytes of all their payloads. -/
theorem run_updates_sameBlock (us : List Instr) : ∀ {bytes : List Byte} {s t : State}, payloads us = some bytes →
    s.phase.accepting = true → s.host = issuing us → Host.Core.run Sys2Proof.core us.length s = .next t →
    SameBlock (absorbBytes s bytes) t := by
  induction us with
  | nil =>
    intro bytes s t hus _ _ e
    cases hus
    cases e
    exact ⟨rfl, rfl, rfl, rfl, rfl⟩
  | cons i us ih =>
    intro bytes s t hus hacc hh e
    obtain ⟨first, more, hi, hmore, rfl⟩ := payloads_cons hus
    have hfirst := update_completes hi hacc (rest := issuing us) (by simpa [issuing] using hh)
    rw [List.length_cons, Nat.add_comm, run_add _ _ _ 1 hfirst.run] at e
    have hphase : (updateEngine first { s with host := issuing us }).phase.accepting = true := by
      rw [updateEngine_accepting first { s with host := issuing us } hacc]
      rfl
    have hblock : SameBlock (absorbBytes s first) (updateEngine first { s with host := issuing us }) :=
      ((withHost_sameBlock s _).absorbBytes first).trans
        (updateEngine_sameBlock first (s := { s with host := issuing us }) hacc)
    rw [absorbBytes_append]
    exact (hblock.absorbBytes more).trans (ih hmore hphase hfirst.host e)

/-- Settles O19: both sequences are ABSORB over the same bytes. -/
theorem updateSplittingDoesNotMatter : Obligations.UpdateSplittingDoesNotMatter := by
  intro us vs bytes s t u hacc hus hvs ht hu
  have htu : SameBlock t u := by
    have ht' := run_updates_sameBlock us hus (s := { s with host := issuing us }) hacc rfl ht
    have hu' := run_updates_sameBlock vs hvs (s := { s with host := issuing vs }) hacc rfl hu
    have hhost := (withHost_sameBlock s (issuing us)).symm.trans (withHost_sameBlock s (issuing vs))
    exact (ht'.symm.trans (hhost.absorbBytes bytes)).trans hu'
  exact ⟨htu.h.symm, htu.buf.symm, htu.fill.symm, htu.len.symm⟩

end Sys2Proof.Machine
end

section
/-! SUPPORT and PROOFS. FINALIZE and the padding, 40_engine_commands.md sections 4 and 8 (R92 to R99), the length field
(20_memory.md R43, R47), and the block as words of either byte order (R42). -/

namespace Sys2Proof.Machine

/-! ## FINALIZE (R86, R92 to R98) -/

/-- Settles O20: by what PAD_AND_FINISH leaves of a legal fill-count. -/
theorem finalizePadsAndCompresses : Obligations.FinalizePadsAndCompresses := by
  intro s hphase hf hw bs n limit marked extra last final
  have hacc := (accepting_iff s.phase).2 hphase
  obtain ⟨hblock, hhash, -⟩ := padAndFinish_spec s hf hw
  refine ⟨_, exec_finalize s, ?_⟩
  rw [finalizeEngine_accepting s hacc]
  refine ⟨rfl, rfl, rfl, ?_, hblock, hhash⟩
  rw [complete_responses]
  exact congrArg (· ++ _) (padAndFinish_responses s)

theorem padAndFinish_h_unused (s : State) {j : Fin 8} (hj : s.alg.stateWords ≤ j.val) :
    (padAndFinish s).h[j] = s.h[j] :=
  padAndFinish_h_keeps (P := fun h => h[j] = s.h[j]) (fun blk h => compressHash_keeps_unused hj blk h) rfl

/-- Zeros and the length field go to the addresses from the fill-count up to the end of the block. -/
theorem padLength_read_of_lt_or_ge {n : Nat} {s : State} {a : BitVec 7} (hn : n ≤ 128)
    (ha : a.toNat < n ∧ a.toNat < s.alg.blockSize - 8 ∨ s.alg.blockSize ≤ a.toNat) :
    (padLength n s).buf.read a = s.buf.read a := by
  have hbs := blockSize_cases s.alg
  rw [padLength_buf, read_writeBytes_outside _ _ _ a (by rw [lengthField_length]; omega) (by rw [lengthField_length]; omega),
    read_zeroFill_outside _ _ _ a (by omega) hn (by omega)]

theorem padMark_read_of_ne {s : State} {a : BitVec 7} (ha : a ≠ s.fill) : (padMark s).buf.read a = s.buf.read a := by
  rw [padMark_buf, read_write_ne _ _ _ _ ha]

theorem padAndFinish_read_beyond {s : State} {a : BitVec 7} (ha : a ≠ s.fill) (hbs : s.alg.blockSize ≤ a.toNat) :
    (padAndFinish s).buf.read a = s.buf.read a := by
  have hfill := s.fill.isLt
  have hle := blockSize_le s.alg
  rcases padAndFinish_cases s with ⟨-, e⟩ | ⟨-, e⟩ <;> rw [e, compress_buf]
  · exact (padLength_read_of_lt_or_ge (s := padMark s) (by omega) (.inr hbs)).trans (padMark_read_of_ne ha)
  · refine Eq.trans (padLength_read_of_lt_or_ge (Nat.zero_le 128) (Or.inr ?_)) ?_
    · exact hbs
    rw [compress_buf, read_zeroFill_outside _ _ _ a hle (by omega) (by omega), padMark_read_of_ne ha]

theorem padAndFinish_read_below {s : State} {a : BitVec 7} (hone : s.fill.toNat + 1 ≤ padLimit s)
    (ha : a.toNat < s.fill.toNat) : (padAndFinish s).buf.read a = s.buf.read a := by
  have hlim : padLimit s ≤ s.alg.blockSize - 8 := padLimitOf_le _ _
  have hne : a ≠ s.fill := by rintro rfl; omega
  rcases padAndFinish_cases s with ⟨-, e⟩ | ⟨htwo, -⟩
  · rw [e, compress_buf, padLength_read_of_lt_or_ge (by omega) (.inl ⟨by omega, by rw [padMark_alg]; omega⟩),
      padMark_read_of_ne hne]
  · omega

/-- Settles O21: by the frame of PAD_AND_FINISH. -/
theorem finalizeFrame : Obligations.FinalizeFrame := by
  intro s t hacc e
  cases (exec_finalize s).symm.trans e
  rw [finalizeEngine_accepting s hacc]
  exact ⟨padAndFinish_alg s, padAndFinish_len s, padAndFinish_errSticky s, padAndFinish_padLimit128 s, padAndFinish_host s,
    padAndFinish_resets s, fun _ => padAndFinish_h_unused s, fun _ => padAndFinish_read_beyond,
    fun hone _ => padAndFinish_read_below hone⟩

/-- Settles O22: PAD_AND_FINISH compresses the blocks of the padded message. -/
theorem finalizeFinishesTheMessage : Obligations.FinalizeFinishesTheMessage :=
  fun s _ hw h => ⟨_, exec_finalize s, finalizeEngine_finished hw h⟩

/-- Settles O25: the zeros of R99 fill the block the message ends in, or that block and the next. -/
theorem paddedMessageIsWholeBlocks : Obligations.PaddedMessageIsWholeBlocks := by
  intro p alg msg
  have hlim := padLimitOf_le p alg
  change _ = alg.blockSize * (_ + if _ ≤ padLimitOf p alg then 1 else 2)
  simp only [paddedMessage, List.length_append, List.length_singleton, List.length_replicate, lengthField_length,
    padZeros_eq_ite]
  rcases blockSize_cases alg with hbs | hbs <;> rw [hbs] at hlim ⊢ <;> split_ifs <;> omega

/-! ## The length field (R43, R96) -/

theorem unLE64_getD (w : Word64) {k : Nat} (hk : k < 8) : (unLE64 w).getD k 0 = w.extractLsb' (8 * k) 8 := by
  interval_cases k <;> rfl

theorem unBE64_getD (w : Word64) {k : Nat} (hk : k < 8) : (unBE64 w).getD k 0 = w.extractLsb' (8 * (7 - k)) 8 := by
  interval_cases k <;> rfl

theorem littleEndian_iff (alg : Alg) : alg.littleEndian = true ↔ alg = .md4 ∨ alg = .md5 := by
  cases alg <;> simp [Alg.littleEndian]

theorem bitCount_toNat (len : Word64) : (len * 8).toNat = len.toNat * 8 % 2 ^ 64 := BitVec.toNat_mul ..

theorem lengthField_getD_toNat (alg : Alg) (len : Word64) {k : Nat} (hk : k < 8) :
    ((lengthField alg len).getD k 0).toNat =
      fieldAt (len.toNat * 8 % 2 ^ 64) (8 * (if alg = .md4 ∨ alg = .md5 then k else 7 - k)) 8 := by
  simp only [lengthField, littleEndian_iff]
  split_ifs
  · rw [unLE64_getD _ hk, toNat_extractLsb'_eq_fieldAt, bitCount_toNat]
  · rw [unBE64_getD _ hk, toNat_extractLsb'_eq_fieldAt, bitCount_toNat]

/-- Settles O23: byte by byte. -/
theorem lengthFieldIsTheBitCount : Obligations.LengthFieldIsTheBitCount :=
  fun alg len _ hk => ⟨lengthField_length alg len, lengthField_getD_toNat alg len hk⟩

/-! ## A block as little-endian words (R42) -/

theorem unpackLE32_length : ∀ blk : List Byte, (unpackLE32 blk).length = blk.length / 4
  | [] | [_] | [_, _] | [_, _, _] => by simp [unpackLE32]
  | _ :: _ :: _ :: _ :: rest => by
    simp only [unpackLE32, List.length_cons, unpackLE32_length rest]
    omega

theorem unpackLE32_getD : ∀ {blk : List Byte} {j : Nat}, 4 * j + 3 < blk.length →
    (unpackLE32 blk).getD j 0 =
      le32 (blk.getD (4 * j) 0) (blk.getD (4 * j + 1) 0) (blk.getD (4 * j + 2) 0) (blk.getD (4 * j + 3) 0)
  | _ :: _ :: _ :: _ :: _, 0, _ => rfl
  | _ :: _ :: _ :: _ :: rest, j + 1, h => unpackLE32_getD (blk := rest) (j := j) (by simp only [List.length_cons] at h; omega)

/-- Settles O54: by the length and the words of each unpacking. -/
theorem blockWordsAreReadInTheByteOrder : Obligations.BlockWordsAreReadInTheByteOrder := by
  intro blk j hj byte
  refine ⟨fun h64 => ⟨?_, unpackLE32_getD (by omega), unpackBE32_block_length h64, unpackBE32_getD (by omega)⟩,
    fun h128 => ⟨unpackBE64_block_length h128, unpackBE64_getD (by omega)⟩⟩
  rw [unpackLE32_length, h64]

/-! ## The length field as block words (R47) -/

section
variable {alg : Alg} {len : Word64} {front : List Byte} (hfront : front.length = 56)
include hfront

/-- The last eight bytes of the block are those of the bit count, in the algorithm's order. -/
theorem block_getD_toNat {k : Nat} (hk : k < 8) :
    ((front ++ lengthField alg len).getD (56 + k) 0).toNat =
      fieldAt (len.toNat * 8 % 2 ^ 64) (8 * (if alg = .md4 ∨ alg = .md5 then k else 7 - k)) 8 := by
  rw [← lengthField_getD_toNat alg len hk, List.getD_append_right _ _ _ _ (by omega), hfront, Nat.add_sub_cancel_left]

theorem block_length : (front ++ lengthField alg len).length = 64 := by
  rw [List.length_append, hfront, lengthField_length]

theorem unpackLE32_block_words (halg : alg = .md4 ∨ alg = .md5) :
    ((unpackLE32 (front ++ lengthField alg len)).getD 14 0).toNat = len.toNat * 8 % 2 ^ 64 % 2 ^ 32 ∧
    ((unpackLE32 (front ++ lengthField alg len)).getD 15 0).toNat = len.toNat * 8 % 2 ^ 64 / 2 ^ 32 := by
  have hlen := block_length (alg := alg) (len := len) hfront
  have hbyte : ∀ k < 8, ((front ++ lengthField alg len).getD (56 + k) 0).toNat =
      len.toNat * 8 % 2 ^ 64 / 2 ^ (8 * k) % 2 ^ 8 := fun k hk => by
    rw [block_getD_toNat hfront hk, if_pos halg, fieldAt]
  rw [unpackLE32_getD (by omega), unpackLE32_getD (by omega), le32_eq_be32, le32_eq_be32, be32_toNat, be32_toNat]
  rw [hbyte 0 (by decide), hbyte 1 (by decide), hbyte 2 (by decide), hbyte 3 (by decide), hbyte 4 (by decide),
    hbyte 5 (by decide), hbyte 6 (by decide), hbyte 7 (by decide)]
  omega

theorem unpackBE32_block_words (halg : ¬(alg = .md4 ∨ alg = .md5)) :
    ((unpackBE32 (front ++ lengthField alg len)).getD 14 0).toNat = len.toNat * 8 % 2 ^ 64 / 2 ^ 32 ∧
    ((unpackBE32 (front ++ lengthField alg len)).getD 15 0).toNat = len.toNat * 8 % 2 ^ 64 % 2 ^ 32 := by
  have hlen := block_length (alg := alg) (len := len) hfront
  have hbyte : ∀ k < 8, ((front ++ lengthField alg len).getD (56 + k) 0).toNat =
      len.toNat * 8 % 2 ^ 64 / 2 ^ (8 * (7 - k)) % 2 ^ 8 := fun k hk => by
    rw [block_getD_toNat hfront hk, if_neg halg, fieldAt]
  rw [unpackBE32_getD (by omega), unpackBE32_getD (by omega), be32_toNat, be32_toNat]
  rw [hbyte 0 (by decide), hbyte 1 (by decide), hbyte 2 (by decide), hbyte 3 (by decide), hbyte 4 (by decide),
    hbyte 5 (by decide), hbyte 6 (by decide), hbyte 7 (by decide)]
  omega

end

/-- Settles O24: by the byte order of the algorithm. -/
theorem lengthFieldAsBlockWords : Obligations.LengthFieldAsBlockWords := by
  intro alg len front _ hfront bits block
  refine ⟨unpackLE32_block_words hfront, fun halg => unpackBE32_block_words hfront ?_⟩
  rcases halg with rfl | rfl | rfl <;> decide

end Sys2Proof.Machine
end

section
/-! SUPPORT and PROOFS. The digest (10_state.md R31; 40_engine_commands.md R88, R89) and the pseudo-instructions `absorb` and
`sum` (30_encoding.md R73; 40_engine_commands.md R104). -/

namespace Sys2Proof.Machine

/-! ## A state word in the output byte order (R31) -/

theorem serWord_length (alg : Alg) (w : Word64) : (serWord alg w).length = alg.wordBits / 8 := by
  cases alg <;> simp [serWord, unLE32, unBE32, unBE64, Alg.wordBits]

theorem low32_extractLsb' (w : Word64) {lo : Nat} (hlo : lo + 8 ≤ 32) :
    (low32 w).extractLsb' lo 8 = w.extractLsb' lo 8 := by
  refine BitVec.eq_of_getLsbD_eq fun i hi => ?_
  have : lo + i < 32 := by omega
  simp [low32, hi, this]

theorem unLE32_getD (w : Word32) {k : Nat} (hk : k < 4) : (unLE32 w).getD k 0 = w.extractLsb' (8 * k) 8 := by
  interval_cases k <;> rfl

theorem unBE32_getD (w : Word32) {k : Nat} (hk : k < 4) : (unBE32 w).getD k 0 = w.extractLsb' (8 * (4 - 1 - k)) 8 := by
  interval_cases k <;> rfl

/-- Byte k of a state word, from the low end for MD4 and MD5 and from the high end for the others. -/
theorem serWord_getD (alg : Alg) (w : Word64) {k : Nat} (hk : k < alg.wordBits / 8) :
    (serWord alg w).getD k 0 =
      w.extractLsb' (8 * (if alg.littleEndian then k else alg.wordBits / 8 - 1 - k)) 8 := by
  cases alg with
  | md4 | md5 => exact (unLE32_getD _ hk).trans (low32_extractLsb' w (by change k < 4 at hk; omega))
  | sha1 | sha224 | sha256 => exact (unBE32_getD _ hk).trans (low32_extractLsb' w (by change k < 4 at hk; omega))
  | sha384 | sha512 => exact unBE64_getD _ hk

/-! ## The digest, byte by byte (R88, R89) -/

section
variable {α β : Type} {f : α → List β} {n : Nat} (hf : ∀ a, (f a).length = n)
include hf

theorem length_flatMap_of_length (l : List α) : (l.flatMap f).length = l.length * n := by
  induction l with
  | nil => simp
  | cons a l ih => rw [List.flatMap_cons, List.length_append, ih, hf, List.length_cons, Nat.succ_mul, Nat.add_comm]

/-- Of pieces of n elements each, element i lies in piece i / n. -/
theorem getD_flatMap_of_length (hn : 0 < n) (d : β) : ∀ {l : List α} {i : Nat} {a : α}, l[i / n]? = some a →
    (l.flatMap f).getD i d = (f a).getD (i % n) d := by
  intro l
  induction l with
  | nil => simp
  | cons b l ih =>
    intro i a ha
    rw [List.flatMap_cons]
    rcases Nat.lt_or_ge i n with hi | hi
    · rw [Nat.div_eq_of_lt hi] at ha
      cases ha
      rw [List.getD_append _ _ _ _ (by rwa [hf]), Nat.mod_eq_of_lt hi]
    · rw [Nat.div_eq_sub_div hn hi] at ha
      rw [List.getD_append_right _ _ _ _ (by rwa [hf]), hf, ih ha, ← Nat.mod_eq_sub_mod hi]

end

theorem digestBytes_le (alg : Alg) : alg.digestBytes ≤ alg.stateWords * (alg.wordBits / 8) := by
  cases alg <;> decide

theorem digestOf_length (alg : Alg) (h : HashFile) : (digestOf alg h).length = alg.digestBytes := by
  have hwords : (h.toList.take alg.stateWords).length = alg.stateWords := by
    rw [List.length_take, Vector.length_toList]
    cases alg <;> rfl
  rw [digestOf, List.length_take, length_flatMap_of_length (serWord_length alg), hwords, Nat.min_eq_left (digestBytes_le alg)]

/-- Settles O28: the words H[0..n-1] have at least N bytes. -/
theorem digestHasItsFixedLength : Obligations.DigestHasItsFixedLength := by
  intro alg h
  rw [digestOf_length]
  cases alg <;> rfl

theorem digestByte_toNat {alg : Alg} {h : HashFile} {idx : Nat} {word : Word64} (hidx : idx < alg.digestBytes)
    (hword : h.toList[idx / (alg.wordBits / 8)]? = some word) :
    (digestByte alg h idx).toNat = digestByteOfWord alg word.toNat idx := by
  have hpos : 0 < alg.wordBits / 8 := by cases alg <;> decide
  have hused : idx / (alg.wordBits / 8) < alg.stateWords :=
    Nat.div_lt_of_lt_mul (Nat.mul_comm .. ▸ hidx.trans_le (digestBytes_le alg))
  have hword' : (h.toList.take alg.stateWords)[idx / (alg.wordBits / 8)]? = some word := by
    rwa [List.getElem?_take_of_lt hused]
  rw [digestByte, digestOf, List.getD_eq_getElem?_getD, List.getElem?_take_of_lt hidx, ← List.getD_eq_getElem?_getD,
    getD_flatMap_of_length (serWord_length alg) hpos 0 hword', serWord_getD alg word (Nat.mod_lt _ hpos),
    toNat_extractLsb'_eq_fieldAt]
  rfl

/-- Settles O26: by the byte of the state word. -/
theorem readDigestAnswersTheDigestByte : Obligations.ReadDigestAnswersTheDigestByte := by
  intro s idx word hphase hidx hword
  rw [exec_rdigIdx, readDigest_within_digest hphase hidx, ← digestByte_toNat hidx hword, BitVec.ofNat_toNat]
  rfl

/-! ## `absorb` (R73) -/

theorem payload_le32 (nb : Nat) (b0 b1 b2 b3 : Byte) : payload nb (le32 b0 b1 b2 b3) = [b0, b1, b2, b3].take nb := by
  obtain ⟨-, hunpack, -⟩ := packingAndUnpackingAreInverse.1 b0 b1 b2 b3
  exact congrArg (List.take nb) hunpack

theorem payloads_cons_of_some {i : Instr} {us : List Instr} {bytes more : List Byte} (hi : updatePayload i = some bytes)
    (hus : payloads us = some more) : payloads (i :: us) = some (bytes ++ more) := by
  rw [payloads, hi, hus]

theorem payloads_absorbChunks : ∀ msg : List Byte,
    payloads (absorbChunks msg) = some msg ∧ (absorbChunks msg).length = (msg.length + 3) / 4
  | [] => ⟨rfl, rfl⟩
  | [b0] =>
    ⟨payloads_cons_of_some (i := .updateB0 _) (congrArg some (payload_le32 1 b0 0 0 0)) rfl, by simp [absorbChunks]⟩
  | [b0, b1] =>
    ⟨payloads_cons_of_some (i := .updateB0B1 _) (congrArg some (payload_le32 2 b0 b1 0 0)) rfl, by simp [absorbChunks]⟩
  | [b0, b1, b2] =>
    ⟨payloads_cons_of_some (i := .updateB0B1B2 _) (congrArg some (payload_le32 3 b0 b1 b2 0)) rfl, by simp [absorbChunks]⟩
  | b0 :: b1 :: b2 :: b3 :: rest => by
    obtain ⟨hrest, hlen⟩ := payloads_absorbChunks rest
    refine ⟨payloads_cons_of_some (i := .updateB0B1B2B3 _) (congrArg some (payload_le32 4 b0 b1 b2 b3)) hrest, ?_⟩
    simp only [absorbChunks, List.length_cons, hlen]
    omega

/-- Settles O47: chunk by chunk. -/
theorem absorbExpandsToTheMessage : Obligations.AbsorbExpandsToTheMessage := by
  intro msg
  cases msg with
  | nil => exact ⟨rfl, rfl⟩
  | cons b msg => exact payloads_absorbChunks (b :: msg)

/-! ## `digest` and `sum` (R73, R104) -/

/-- The READ_DIGEST commands of these indexes. -/
def readDigests (idxs : List Nat) : List Instr := idxs.map fun idx => .rdigIdx (BitVec.ofNat 8 idx)

/-- The state after READ_DIGEST of an index below N, with the moves left over. -/
def digestRead (idx : Nat) (rest : List HostMove) (s : State) : State :=
  complete ((digestByte s.alg s.h idx).setWidth 32) { s with host := rest }

theorem step_readDigest {s : State} {idx : Nat} {rest : List HostMove} (hphase : s.phase = .finalized)
    (hidx : idx < s.alg.digestBytes) (hh : s.host = issuing (readDigests [idx]) ++ rest) :
    step s = .next (digestRead idx rest s) := by
  have h64 : idx < 64 := hidx.trans_le (by cases s.alg <;> decide)
  have hnat : (BitVec.ofNat 8 idx).toNat = idx := by rw [BitVec.toNat_ofNat]; omega
  have hwf : (Instr.rdigIdx (BitVec.ofNat 8 idx)).WellFormed := decide_eq_true (by rwa [hnat])
  rw [step_wellFormed hwf hh, exec_rdigIdx, hnat]
  exact congrArg _ (readDigest_within_digest (s := { s with host := rest }) hphase hidx)

/-- READ_DIGEST commands in Finalized, each with an index below N, answer the bytes of the digest. -/
theorem readDigests_answer (rest : List HostMove) (idxs : List Nat) : ∀ {s : State}, s.phase = .finalized →
    (∀ idx ∈ idxs, idx < s.alg.digestBytes) → s.host = issuing (readDigests idxs) ++ rest →
    ∃ t, Host.Core.run Sys2Proof.core idxs.length s = .next t ∧ t.host = rest ∧
      t.responses = s.responses ++ idxs.map fun idx => ⟨.ok, (digestByte s.alg s.h idx).setWidth 32⟩ := by
  induction idxs with
  | nil => exact fun _ _ hh => ⟨_, rfl, hh, by simp⟩
  | cons idx idxs ih =>
    intro s hphase hidxs hh
    have hstep := step_readDigest hphase (hidxs idx (List.mem_cons_self ..)) (rest := issuing (readDigests idxs) ++ rest) hh
    obtain ⟨t, hrun, hhost, hresp⟩ := ih (s := digestRead idx (issuing (readDigests idxs) ++ rest) s) hphase
      (fun i hi => hidxs i (List.mem_cons_of_mem _ hi)) rfl
    refine ⟨t, (run_next _ _ _ hstep).trans hrun, hhost, ?_⟩
    rw [hresp, List.map_cons, List.append_cons]
    rfl

theorem map_digestByte_range (alg : Alg) (h : HashFile) :
    (List.range alg.digestBytes).map (digestByte alg h) = digestOf alg h := by
  refine List.ext_getElem (by rw [List.length_map, List.length_range, digestOf_length]) fun i _ hi => ?_
  rw [List.getElem_map, List.getElem_range, digestByte, List.getD_eq_getElem _ _ hi]

/-- Settles O46: up to FINALIZE the engine hashes the message, and then each READ_DIGEST answers a byte of the digest. -/
theorem sumAnswersTheDigest : Obligations.SumAnswersTheDigest := by
  intro alg msg s rest hw hh
  obtain ⟨hpayloads, -⟩ := absorbExpandsToTheMessage msg
  obtain ⟨t, hrun, halg, hhost, hpad, hfinished, hresp⟩ :=
    engineHashesTheMessage alg (absorbCommands msg) msg s (issuing (digestCommands alg) ++ rest) hpayloads hw
      (by simpa [issuing, sumCommands] using hh)
  obtain ⟨u, hrun', hhost', hresp'⟩ := readDigests_answer rest (List.range alg.digestBytes) hfinished.phase
    (fun idx hidx => halg ▸ List.mem_range.1 hidx) hhost
  refine ⟨u, ?_, hhost', ?_⟩
  · have hlen : (sumCommands alg msg).length = (absorbCommands msg).length + 2 + (List.range alg.digestBytes).length := by
      simp only [sumCommands, digestCommands, List.length_cons, List.length_append, List.length_map]
      omega
    rw [hlen, run_add _ _ _ _ hrun]
    exact hrun'
  · rw [hresp', hresp, messageDigest, ← map_digestByte_range, hfinished.hash, hpad, halg, List.map_map]
    rfl

end Sys2Proof.Machine
end

section
/-! SUPPORT and PROOFS. What a compression reads and writes of H (10_state.md R22; 40_engine_commands.md R100), and that what
the spec leaves unspecified cannot be observed (10_state.md R33.4; 20_memory.md R44). -/

namespace Sys2Proof.Machine

/-! ## The visible words of H (R22) -/

/-- What a core or the digest reads of a word of H: its low half when W = 32. -/
def visibleWord (alg : Alg) (w : Word64) : Word64 := if alg.wordBits = 32 then zext64 (low32 w) else w

theorem low32_zext64 (w : Word32) : low32 (zext64 w) = w := by
  simp [low32, zext64]

theorem low32_eq_of_visibleWord_eq {alg : Alg} {v w : Word64} (halg : alg.wordBits = 32)
    (h : visibleWord alg v = visibleWord alg w) : low32 v = low32 w := by
  rw [visibleWord, visibleWord, if_pos halg, if_pos halg] at h
  rw [← low32_zext64 (low32 v), h, low32_zext64]

theorem visibleHash_eq_map (alg : Alg) (h : HashFile) :
    visibleHash alg h = (h.toList.take alg.stateWords).map (visibleWord alg) := rfl

theorem stateWords_le (alg : Alg) : alg.stateWords ≤ 8 := by cases alg <;> decide

theorem visibleHash_length (alg : Alg) (h : HashFile) : (visibleHash alg h).length = alg.stateWords := by
  rw [visibleHash_eq_map, List.length_map, List.length_take, Vector.length_toList, Nat.min_eq_left (stateWords_le alg)]

theorem visibleHash_getElem {alg : Alg} {h : HashFile} {j : Fin 8} (hj : j.val < alg.stateWords) :
    (visibleHash alg h)[j.val]'(by rwa [visibleHash_length]) = visibleWord alg h[j] := by
  simp [visibleHash_eq_map]

/-- Two files show the same where each used word shows the same. -/
theorem visibleHash_eq_iff {alg : Alg} {h g : HashFile} :
    visibleHash alg h = visibleHash alg g ↔
      ∀ j : Fin 8, j.val < alg.stateWords → visibleWord alg h[j] = visibleWord alg g[j] := by
  constructor
  · intro heq j hj
    rw [← visibleHash_getElem hj, ← visibleHash_getElem hj]
    simp only [heq]
  · intro hwords
    refine List.ext_getElem (by rw [visibleHash_length, visibleHash_length]) fun j hj _ => ?_
    rw [visibleHash_length] at hj
    let i : Fin 8 := ⟨j, hj.trans_le (stateWords_le alg)⟩
    have hshow (f : HashFile) := visibleHash_getElem (h := f) (j := i) hj
    exact (hshow h).trans ((hwords i hj).trans (hshow g).symm)

/-! ## What a compression reads and writes (R100) -/

theorem writeWork4_getElem_eq (h g : HashFile) (v : Work4) {j : Fin 8} (hj : j.val < 4) :
    (writeWork4 h v)[j] = (writeWork4 g v)[j] := by
  obtain ⟨j, -⟩ := j
  change j < 4 at hj
  interval_cases j <;> rfl

theorem writeWork5_getElem_eq (h g : HashFile) (v : Work5) {j : Fin 8} (hj : j.val < 5) :
    (writeWork5 h v)[j] = (writeWork5 g v)[j] := by
  obtain ⟨j, -⟩ := j
  change j < 5 at hj
  interval_cases j <;> rfl

/-- Each core reads its registers from the visible words, and writes words that depend on its registers and the block alone. -/
theorem compressHash_getElem_eq {alg : Alg} {h g : HashFile} (hvis : visibleHash alg h = visibleHash alg g)
    (blk : List Byte) {j : Fin 8} (hj : j.val < alg.stateWords) :
    (compressHash alg h blk)[j] = (compressHash alg g blk)[j] := by
  have hwords := visibleHash_eq_iff.1 hvis
  have hlow (halg : alg.wordBits = 32) (i : Fin 8) (hi : i.val < alg.stateWords) : low32 h[i] = low32 g[i] :=
    low32_eq_of_visibleWord_eq halg (hwords i hi)
  cases alg with
  | md4 | md5 =>
    have hread : readWork4 h = readWork4 g := by
      simp only [readWork4, Work4.mk.injEq]
      exact ⟨hlow rfl 0 (by decide), hlow rfl 1 (by decide), hlow rfl 2 (by decide), hlow rfl 3 (by decide)⟩
    simp only [compressHash, hread]
    exact writeWork4_getElem_eq h g _ hj
  | sha1 =>
    have hread : readWork5 h = readWork5 g := by
      simp only [readWork5, Work5.mk.injEq]
      exact ⟨hlow rfl 0 (by decide), hlow rfl 1 (by decide), hlow rfl 2 (by decide), hlow rfl 3 (by decide),
        hlow rfl 4 (by decide)⟩
    simp only [compressHash, hread]
    exact writeWork5_getElem_eq h g _ hj
  | sha224 | sha256 =>
    have hread : readWork8x32 h = readWork8x32 g := by
      simp only [readWork8x32, Work8.mk.injEq]
      exact ⟨hlow rfl 0 (by decide), hlow rfl 1 (by decide), hlow rfl 2 (by decide), hlow rfl 3 (by decide),
        hlow rfl 4 (by decide), hlow rfl 5 (by decide), hlow rfl 6 (by decide), hlow rfl 7 (by decide)⟩
    simp only [compressHash, hread]
  | sha384 | sha512 =>
    have hread : readWork8x64 h = readWork8x64 g := by
      simp only [readWork8x64, Work8.mk.injEq]
      exact ⟨hwords 0 (by decide), hwords 1 (by decide), hwords 2 (by decide), hwords 3 (by decide),
        hwords 4 (by decide), hwords 5 (by decide), hwords 6 (by decide), hwords 7 (by decide)⟩
    simp only [compressHash, hread]

theorem compressHash_visible {alg : Alg} {h g : HashFile} (hvis : visibleHash alg h = visibleHash alg g) (blk : List Byte) :
    visibleHash alg (compressHash alg h blk) = visibleHash alg (compressHash alg g blk) :=
  visibleHash_eq_iff.2 fun _ hj => congrArg _ (compressHash_getElem_eq hvis blk hj)

/-- Settles O57: by what each core reads and writes. -/
theorem compressionReadsAndWritesItsWords : Obligations.CompressionReadsAndWritesItsWords :=
  fun alg h _ blk => ⟨compressHash_high alg h blk, compressHash_low alg h blk, fun hvis => compressHash_visible hvis blk⟩

/-- The digest is made of the visible words (R31). -/
theorem digestOf_eq_visible (alg : Alg) (h : HashFile) :
    digestOf alg h = ((visibleHash alg h).flatMap (serWord alg)).take alg.digestBytes := by
  have hser (w : Word64) : serWord alg (visibleWord alg w) = serWord alg w := by
    cases alg <;> simp [serWord, visibleWord, Alg.wordBits, low32_zext64]
  simp only [digestOf, visibleHash_eq_map, List.flatMap_map, hser]

/-! ## States the host cannot tell apart -/

section
variable {s t : State}

theorem Alike.withHost (h : Alike s t) (rest : List HostMove) :
    Alike { s with host := rest } { t with host := rest } :=
  { h with host := rfl }

theorem Alike.respond (h : Alike s t) (c : RespCode) (d : Word32) : Alike (respond c d s) (respond c d t) :=
  { h with responses := congrArg (· ++ _) h.responses }

theorem Alike.raise (h : Alike s t) (e : RespCode) : Alike (raise e s) (raise e t) :=
  { h with responses := congrArg (· ++ _) h.responses, lastErr := rfl, errSticky := rfl }

theorem Alike.complete (h : Alike s t) (d : Word32) : Alike (complete d s) (complete d t) :=
  { h with responses := congrArg (· ++ _) h.responses, lastErr := rfl }

theorem Alike.takeReset (h : Alike s t) : Alike (takeReset s) (takeReset t) where
  phase := rfl
  alg := rfl
  len := rfl
  fill := rfl
  lastErr := rfl
  errSticky := rfl
  padLimit128 := h.padLimit128
  host := h.host
  responses := h.responses
  resets := congrArg (· + 1) h.resets
  hash := fun hp => absurd rfl hp
  buf := nofun

theorem Alike.initEngine (h : Alike s t) (alg : Alg) : Alike (initEngine alg s) (initEngine alg t) where
  phase := rfl
  alg := rfl
  len := rfl
  fill := rfl
  lastErr := rfl
  errSticky := rfl
  padLimit128 := h.padLimit128
  host := h.host
  responses := congrArg (· ++ _) h.responses
  resets := h.resets
  hash := fun _ => rfl
  buf := fun _ => rfl

theorem statusWord_eq_of_alike (h : Alike s t) : statusWord s = statusWord t := by
  simp only [statusWord, dlenField, h.phase, h.alg, h.lastErr, h.errSticky, h.fill]

theorem Alike.readStatus (h : Alike s t) : Alike (readStatus s) (readStatus t) := by
  rw [Machine.readStatus, Machine.readStatus, statusWord_eq_of_alike h]
  exact h.respond .ok _

theorem Alike.readDigest (h : Alike s t) (idx : Nat) : Alike (readDigest idx s) (readDigest idx t) := by
  rcases readDigest_cases idx s with ⟨hp, e⟩ | ⟨hp, hidx, e⟩ | ⟨hp, hidx, e⟩ <;> rw [e]
  · rw [readDigest_not_finalized (h.phase ▸ hp)]
    exact h.raise _
  · rw [readDigest_beyond_digest (h.phase ▸ hp) (h.alg ▸ hidx)]
    exact h.raise _
  · have hbyte : digestByte s.alg s.h idx = digestByte t.alg t.h idx := by
      rw [digestByte, digestByte, digestOf_eq_visible, digestOf_eq_visible, h.hash (by rw [hp]; decide), h.alg]
    rw [readDigest_within_digest (h.phase ▸ hp) (h.alg ▸ hidx), hbyte]
    exact h.complete _

/-! ## ABSORB and PAD_AND_FINISH on such states -/

variable (hacc : s.phase.accepting = true)
include hacc

theorem fill_lt_of_legal (hs : Legal s) : s.fill.toNat < s.alg.blockSize := by
  have hfill := hs.fill
  rw [FillLegal, if_pos hacc] at hfill
  exact hfill.1

theorem Alike.absorb (h : Alike s t) (hs : Legal s) (ht : Legal t) (b : Byte) : Alike (absorb s b) (absorb t b) := by
  have hvis := h.hash (Phase.ne_unconfigured_of_accepting hacc)
  have hmarked : (s.buf.write s.fill b).readBytes 0 (s.fill.toNat + 1) =
      (t.buf.write t.fill b).readBytes 0 (t.fill.toNat + 1) := by
    rw [readBytes_write_end _ _ _ hs.memory, readBytes_write_end _ _ _ ht.memory, h.buf hacc]
  have hlt := fill_lt_of_legal hacc hs
  have hle := blockSize_le s.alg
  by_cases hfull : s.fill.toNat + 1 = s.alg.blockSize
  · have hfull' : t.fill.toNat + 1 = t.alg.blockSize := by rwa [← h.fill, ← h.alg]
    rw [absorb_full s b hfull, absorb_full t b hfull']
    rw [hfull, hfull'] at hmarked
    refine { h with len := congrArg (· + 1) h.len, fill := rfl, hash := fun _ => ?_, buf := fun _ => rfl }
    simp only [hmarked, ← h.alg] at hvis ⊢
    exact compressHash_visible hvis _
  · have hfull' : t.fill.toNat + 1 ≠ t.alg.blockSize := by rwa [← h.fill, ← h.alg]
    rw [absorb_inside s b hfull, absorb_inside t b hfull']
    refine { h with len := congrArg (· + 1) h.len, fill := by simp only [h.fill], buf := fun _ => ?_ }
    have hnext : (BitVec.ofNat 7 (s.fill.toNat + 1)).toNat = s.fill.toNat + 1 := by rw [BitVec.toNat_ofNat]; omega
    simpa only [← h.fill, hnext] using hmarked

theorem Alike.absorbBytes (bytes : List Byte) (h : Alike s t) (hs : Legal s) (ht : Legal t) :
    Alike (absorbBytes s bytes) (absorbBytes t bytes) := by
  induction bytes generalizing s t with
  | nil => exact h
  | cons b bytes ih =>
    refine ih (by rwa [absorb_phase]) (h.absorb hacc hs ht b) (absorb_legal b hacc hs) (absorb_legal b (h.phase ▸ hacc) ht)

theorem Alike.padAndFinish_hash (h : Alike s t) (hs : Legal s) (ht : Legal t) :
    visibleHash s.alg (padAndFinish s).h = visibleHash t.alg (padAndFinish t).h := by
  have hvis := h.hash (Phase.ne_unconfigured_of_accepting hacc)
  obtain ⟨-, hhash, -⟩ := padAndFinish_spec s (fill_lt_of_legal hacc hs) hs.memory
  obtain ⟨-, hhash', -⟩ := padAndFinish_spec t (fill_lt_of_legal (h.phase ▸ hacc) ht) ht.memory
  have hlim : padLimit t = padLimit s := by rw [padLimit, padLimit, h.padLimit128, h.alg]
  rw [hhash, hhash', hlim, ← h.buf hacc, ← h.fill, ← h.alg, ← h.len]
  rw [← h.alg] at hvis
  split_ifs
  · exact compressHash_visible hvis _
  · exact compressHash_visible (compressHash_visible hvis _) _

end

section
variable {s t : State}

theorem Alike.updateEngine (h : Alike s t) (hs : Legal s) (ht : Legal t) (bytes : List Byte) :
    Alike (updateEngine bytes s) (updateEngine bytes t) := by
  cases hacc : s.phase.accepting with
  | false =>
    rw [updateEngine_not_accepting bytes s hacc, updateEngine_not_accepting bytes t (h.phase ▸ hacc)]
    exact h.raise _
  | true =>
    rw [updateEngine_accepting bytes s hacc, updateEngine_accepting bytes t (h.phase ▸ hacc)]
    have hbytes := h.absorbBytes hacc bytes hs ht
    have hacc' : (Machine.absorbBytes s bytes).phase.accepting = true := by rwa [absorbBytes_phase]
    refine Alike.complete ?_ 0
    exact { hbytes with
      phase := rfl
      hash := fun _ => hbytes.hash (Phase.ne_unconfigured_of_accepting hacc')
      buf := fun _ => hbytes.buf hacc' }

theorem Alike.finalizeEngine (h : Alike s t) (hs : Legal s) (ht : Legal t) :
    Alike (finalizeEngine s) (finalizeEngine t) := by
  cases hacc : s.phase.accepting with
  | false =>
    rw [finalizeEngine_not_accepting s hacc, finalizeEngine_not_accepting t (h.phase ▸ hacc)]
    exact h.raise _
  | true =>
    rw [finalizeEngine_accepting s hacc, finalizeEngine_accepting t (h.phase ▸ hacc)]
    refine Alike.complete ?_ 0
    constructor
    case phase | fill => rfl
    case hash => exact fun _ => by simpa using h.padAndFinish_hash hacc hs ht
    case buf => exact nofun
    all_goals simp [h.alg, h.len, h.lastErr, h.errSticky, h.padLimit128, h.host, h.responses, h.resets]

/-! ## Steps of such states -/

theorem exec_alike (h : Alike s t) (hs : Legal s) (ht : Legal t) (i : Instr) :
    ∃ s1 t1, exec i s = .next s1 ∧ exec i t = .next t1 ∧ Alike s1 t1 := by
  rcases instr_cases i with ⟨alg, rfl⟩ | ⟨nb, data, rfl⟩ | rfl | ⟨idx, rfl⟩ | rfl
  · exact ⟨_, _, exec_initCommand alg s, exec_initCommand alg t, h.initEngine alg⟩
  · have hupdate := updatePayload_updateForm nb data
    exact ⟨_, _, exec_update hupdate s, exec_update hupdate t, h.updateEngine hs ht _⟩
  · exact ⟨_, _, exec_finalize s, exec_finalize t, h.finalizeEngine hs ht⟩
  · exact ⟨_, _, exec_rdigIdx idx s, exec_rdigIdx idx t, h.readDigest idx.toNat⟩
  · exact ⟨_, _, rfl, rfl, h.readStatus⟩

theorem step_alike (h : Alike s t) (hs : Legal s) (ht : Legal t) :
    ∃ s1 t1, step s = .next s1 ∧ step t = .next t1 ∧ Alike s1 t1 := by
  cases hh : s.host with
  | nil => exact ⟨s, t, step_idle hh, step_idle (h.host ▸ hh), h⟩
  | cons m rest =>
    have hh' : t.host = m :: rest := h.host ▸ hh
    have hrest := h.withHost rest
    cases m with
    | reset => exact ⟨_, _, step_reset_event hh, step_reset_event hh', hrest.takeReset⟩
    | command w =>
      cases hw : decode w with
      | command i =>
        rw [step_decoded hh hw, step_decoded hh' hw]
        exact exec_alike hrest ⟨hs.fill, hs.hash, hs.memory⟩ ⟨ht.fill, ht.hash, ht.memory⟩ i
      | illegal why =>
        have hno : ∀ i, decode w ≠ .command i := by simp [hw]
        exact ⟨_, _, step_illegal hh hno, step_illegal hh' hno, hrest.raise .illegalCommand⟩

end

/-- Settles O44: alike states take the same kind of step. -/
theorem unspecifiedValuesAreNotObservable : Obligations.UnspecifiedValuesAreNotObservable := by
  intro s t s1 hs ht h e
  obtain ⟨s1', t1, es, et, h1⟩ := step_alike h hs ht
  cases es.symm.trans e
  exact ⟨t1, et, h1⟩

end Sys2Proof.Machine
end

section
/-! SUPPORT and PROOFS. The closed facts of the cores (42 to 46): the examples of the empty message and the round tables; and
the assembly lines of 30_encoding.md R72 and R73. -/

namespace Sys2Proof.Machine

/-! ## The cores on the padded empty message (R160, R180, R200, R220, R240) -/

/-- The padded empty message of n bytes. -/
def emptyBlock (n : Nat) : List Byte := 0x80 :: List.replicate (n - 1) 0

theorem md4Compress_emptyBlock :
    md4Compress md4IV (emptyBlock 64) = ⟨0xe0cfd631, 0x31e96ad1, 0xd7593cb7, 0xc089c0e0⟩ := by decide +kernel

theorem md5Compress_emptyBlock :
    md5Compress md5IV (emptyBlock 64) = ⟨0xd98c1dd4, 0x04b2008f, 0x980980e9, 0x7e42f8ec⟩ := by decide +kernel

theorem sha1Compress_emptyBlock :
    sha1Compress sha1IV (emptyBlock 64) = ⟨0xda39a3ee, 0x5e6b4b0d, 0x3255bfef, 0x95601890, 0xafd80709⟩ := by decide +kernel

theorem sha256Compress_emptyBlock : sha256Compress sha256IV (emptyBlock 64) =
    ⟨0xe3b0c442, 0x98fc1c14, 0x9afbf4c8, 0x996fb924, 0x27ae41e4, 0x649b934c, 0xa495991b, 0x7852b855⟩ := by decide +kernel

theorem sha512Compress_emptyBlock : (sha512Compress sha512IV (emptyBlock 128)).a = 0xcf83e1357eefb8bd ∧
    (sha512Compress sha512IV (emptyBlock 128)).h = 0xa538327af927da3e := by decide +kernel

/-- Settles O58: core by core, each evaluated by the kernel. -/
theorem emptyMessageCompressions : Obligations.EmptyMessageCompressions :=
  ⟨md4Compress_emptyBlock, md5Compress_emptyBlock, sha1Compress_emptyBlock, sha256Compress_emptyBlock,
    sha512Compress_emptyBlock⟩

/-- Settles O59: the tables are finite. -/
theorem roundTablesFollowTheirFormulas : Obligations.RoundTablesFollowTheirFormulas := by
  unfold Obligations.RoundTablesFollowTheirFormulas
  decide

/-! ## The assembly lines (R72, R73) -/

/-- The words of `digest`. -/
theorem digestCommands_words (alg : Alg) :
    (digestCommands alg).map encode =
      (List.range alg.digestBytes).map (fun k => BitVec.ofNat 64 (0x4000000000000000 + k * 2 ^ 48)) := by
  cases alg <;> decide +kernel

theorem encode_initCommand (alg : Alg) :
    encode (initCommand alg) = 0x1000000000000000 ||| alg.code.setWidth 64 <<< 48 := by
  cases alg <;> decide

/-- The words of `sum` with no byte. -/
theorem sumCommands_nil_words (alg : Alg) : (sumCommands alg []).map encode =
    [0x1000000000000000 ||| alg.code.setWidth 64 <<< 48, 0x2000000000000000, 0x3000000000000000] ++
      (List.range alg.digestBytes).map (fun k => BitVec.ofNat 64 (0x4000000000000000 + k * 2 ^ 48)) := by
  rw [← digestCommands_words, ← encode_initCommand]
  rfl

/-- Settles O60: the lines are closed facts, each evaluated by the kernel; `digest` and `sum` by their words for each algorithm. -/
theorem assemblerLines : Obligations.AssemblerLines := by
  refine ⟨?_, ?_, ?_, ?_, ⟨?_, ?_, fun alg => ⟨digestCommands_words alg, sumCommands_nil_words alg⟩⟩, ?_⟩
  all_goals decide +kernel

end Sys2Proof.Machine
end
